-- ==== Sys2Proof/Word.lean ====
section
/-! DEFINITION. The word types of the core: a byte (a field element, a mask or a table index), the 20-bit command
word and the 12-bit response word. Bit 0 of every one is its least significant bit (00_scope.md R9). -/

namespace Sys2Proof

/-- `u8` of the spec (R10): a field element, a mask, a table index, a register of the core. -/
abbrev Byte := BitVec 8

/-- A 4-bit field: an opcode or an error code (30_encoding.md R61, R66). -/
abbrev Nibble := BitVec 4

/-- The command word `cmd[19:0]` (R60). -/
abbrev CmdWord := BitVec 20

/-- The response word `rsp[11:0]` (R66). -/
abbrev RspWord := BitVec 12

end Sys2Proof
end

