-- ==== Sys2Proof/Syntax.lean ====
section
/-! DEFINITION. The commands of the core (30_encoding.md R63), the fields of a command word (R61) and the lines of the
assembler's input (R69, R70). -/

namespace Sys2Proof

/-- The twelve commands of R63, one constructor a row of the opcode table. Every operand value is legal (R62), so no
term of this type is ill formed; an MBZ field is no operand. -/
inductive Instr where
  /-- GFADD a, b (R81) -/
  | gfadd (a b : Byte)
  /-- GFMUL a, b (R83) -/
  | gfmul (a b : Byte)
  /-- GFINV a (R91) -/
  | gfinv (a : Byte)
  /-- AFFINE a (R101) -/
  | affine (a : Byte)
  /-- GEN (R111) -/
  | gen
  /-- RDSB i (R113) -/
  | rdsb (i : Byte)
  /-- WRSB i, v (R114) -/
  | wrsb (i v : Byte)
  /-- NLA (R129) -/
  | nla
  /-- RDSC (R130) -/
  | rdsc
  /-- RDMB (R131) -/
  | rdmb
  /-- RDST (R145) -/
  | rdst
  /-- SRST (R146) -/
  | srst
  deriving DecidableEq, Repr

/-- The three fields of format CMD20 (R61): any values, legal or not. -/
structure Cmd20 where
  /-- `cmd[19:16]` -/
  op : Nibble
  /-- `cmd[15:8]` -/
  a : Byte
  /-- `cmd[7:0]` -/
  b : Byte
  deriving DecidableEq, Repr

/-- The mnemonics of R63. -/
inductive Mnemonic where
  | gfadd | gfmul | gfinv | affine | gen | rdsb | wrsb | nla | rdsc | rdmb | rdst | srst
  deriving DecidableEq, Repr

/-- One line of the assembler's input (R69, R70), its operands numbers as written, in range or not. -/
inductive AsmLine where
  /-- `MNEMONIC` with its operands -/
  | command (m : Mnemonic) (operands : List Nat)
  /-- the directive `.word w` -/
  | word (w : Nat)
  /-- the pseudo-instruction RUN, for `GEN` then `NLA` (R70) -/
  | run
  /-- the pseudo-instruction GFSQR a, for `GFMUL a, a` (R70) -/
  | gfsqr (a : Nat)
  deriving DecidableEq, Repr

end Sys2Proof
end

