-- ==== Sys2Proof/WellFormed.lean ====
section
/-! DEFINITION. Well-formedness where a term can be ill formed: the fields of a command word (30_encoding.md R64) and a
line of the assembler's input (R69). A term of `Instr` is well formed by its type: every operand value is legal (R62).
These checks are written from R64 and R69 directly and not from the decoder, so that the two can be compared. -/

namespace Sys2Proof

/-- The legal command words of R64: an assigned opcode, and every field the command marks MBZ zero. -/
def Cmd20.wf (c : Cmd20) : Bool :=
  match c.op with
  | 0x1#4 | 0x2#4 | 0x7#4 => true
  | 0x3#4 | 0x4#4 | 0x6#4 => c.b == 0x00#8
  | 0x5#4 | 0x8#4 | 0x9#4 | 0xA#4 | 0xB#4 | 0xF#4 => c.a == 0x00#8 && c.b == 0x00#8
  | _ => false

/-- How many operands the form of a mnemonic has (the forms of R69). -/
def Mnemonic.arity : Mnemonic → Nat
  | .gfadd | .gfmul | .wrsb => 2
  | .gfinv | .affine | .rdsb => 1
  | .gen | .nla | .rdsc | .rdmb | .rdst | .srst => 0

/-- Operands "must lie in 0..255" and their number is the form's (R69); `.word` gives a 20-bit value. -/
def AsmLine.wf : AsmLine → Bool
  | .command m ops => ops.length == m.arity && ops.all (fun n => decide (n < 256))
  | .word w => decide (w < 2 ^ 20)
  | .run => true
  | .gfsqr a => decide (a < 256)

end Sys2Proof
end

