-- ==== Sys2Proof/Decode.lean ====
section
/-! DEFINITION. Decoding a command word (30_encoding.md R60 to R65), total, with a named rejection for every illegal
word; then the encoder, the opcode table as rows of match and mask (R63), and the reading of a table-numbered word. -/

namespace Sys2Proof

/-- The fields of a command word (R61). -/
def fieldsOf (w : CmdWord) : Cmd20 :=
  { op := w.extractLsb' 16 4, a := w.extractLsb' 8 8, b := w.extractLsb' 0 8 }

/-- `cmd` = `{op, a, b}` (R61). -/
def Cmd20.toWord (c : Cmd20) : CmdWord := (c.op ++ c.a ++ c.b : BitVec (4 + 8 + 8))

/-- Why a word is illegal (R64): (a) a reserved opcode, (b) a nonzero MBZ field, `a` looked at first. -/
inductive DecodeError where
  /-- `op` is 0x0, 0xC, 0xD or 0xE (R64 a, R147) -/
  | reservedOpcode (op : Nibble)
  /-- field `a` is MBZ and not zero (R64 b) -/
  | nonzeroA (a : Byte)
  /-- field `b` is MBZ and not zero (R64 b) -/
  | nonzeroB (b : Byte)
  deriving DecidableEq, Repr

/-- A command whose field `b` is MBZ. -/
def needZeroB (c : Cmd20) (i : Instr) : Except DecodeError Instr :=
  if c.b = 0x00#8 then .ok i else .error (.nonzeroB c.b)

/-- A command whose fields `a` and `b` are both MBZ. -/
def needZeroAB (c : Cmd20) (i : Instr) : Except DecodeError Instr :=
  if c.a = 0x00#8 then needZeroB c i else .error (.nonzeroA c.a)

/-- The rows of R63 by opcode. -/
def decodeFields (c : Cmd20) : Except DecodeError Instr :=
  match c.op with
  | 0x1#4 => .ok (.gfadd c.a c.b)
  | 0x2#4 => .ok (.gfmul c.a c.b)
  | 0x3#4 => needZeroB c (.gfinv c.a)
  | 0x4#4 => needZeroB c (.affine c.a)
  | 0x5#4 => needZeroAB c .gen
  | 0x6#4 => needZeroB c (.rdsb c.a)
  | 0x7#4 => .ok (.wrsb c.a c.b)
  | 0x8#4 => needZeroAB c .nla
  | 0x9#4 => needZeroAB c .rdsc
  | 0xA#4 => needZeroAB c .rdmb
  | 0xB#4 => needZeroAB c .rdst
  | 0xF#4 => needZeroAB c .srst
  | op => .error (.reservedOpcode op)

/-- The decoder of R65: total, the same in every state of the core (R71), from the command word alone. -/
def decode (w : CmdWord) : Except DecodeError Instr := decodeFields (fieldsOf w)

/-- The fields of a command, its MBZ fields zero (R63). -/
def fieldsOfInstr : Instr → Cmd20
  | .gfadd a b => ⟨0x1#4, a, b⟩
  | .gfmul a b => ⟨0x2#4, a, b⟩
  | .gfinv a => ⟨0x3#4, a, 0x00#8⟩
  | .affine a => ⟨0x4#4, a, 0x00#8⟩
  | .gen => ⟨0x5#4, 0x00#8, 0x00#8⟩
  | .rdsb i => ⟨0x6#4, i, 0x00#8⟩
  | .wrsb i v => ⟨0x7#4, i, v⟩
  | .nla => ⟨0x8#4, 0x00#8, 0x00#8⟩
  | .rdsc => ⟨0x9#4, 0x00#8, 0x00#8⟩
  | .rdmb => ⟨0xA#4, 0x00#8, 0x00#8⟩
  | .rdst => ⟨0xB#4, 0x00#8, 0x00#8⟩
  | .srst => ⟨0xF#4, 0x00#8, 0x00#8⟩

/-- The command word of a command (R61, R63). -/
def encode (i : Instr) : CmdWord := (fieldsOfInstr i).toWord

/-- The mnemonic of a command. -/
def Instr.mnemonic : Instr → Mnemonic
  | .gfadd _ _ => .gfadd
  | .gfmul _ _ => .gfmul
  | .gfinv _ => .gfinv
  | .affine _ => .affine
  | .gen => .gen
  | .rdsb _ => .rdsb
  | .wrsb _ _ => .wrsb
  | .nla => .nla
  | .rdsc => .rdsc
  | .rdmb => .rdmb
  | .rdst => .rdst
  | .srst => .srst

/-- One row of the opcode table of R63. -/
structure OpRow where
  /-- the command -/
  mnemonic : Mnemonic
  /-- the column `match` -/
  pattern : CmdWord
  /-- the column `mask` -/
  mask : CmdWord
  deriving DecidableEq, Repr

/-- "a word w is this command exactly when `w & mask` = `match`" (R63). -/
def OpRow.accepts (r : OpRow) (w : CmdWord) : Bool := w &&& r.mask == r.pattern

/-- The twelve rows of R63, copied from its columns `match` and `mask`. -/
def opTable : List OpRow :=
  [ ⟨.gfadd, 0x10000#20, 0xF0000#20⟩, ⟨.gfmul, 0x20000#20, 0xF0000#20⟩,
    ⟨.gfinv, 0x30000#20, 0xF00FF#20⟩, ⟨.affine, 0x40000#20, 0xF00FF#20⟩,
    ⟨.gen, 0x50000#20, 0xFFFFF#20⟩, ⟨.rdsb, 0x60000#20, 0xF00FF#20⟩,
    ⟨.wrsb, 0x70000#20, 0xF0000#20⟩, ⟨.nla, 0x80000#20, 0xFFFFF#20⟩,
    ⟨.rdsc, 0x90000#20, 0xFFFFF#20⟩, ⟨.rdmb, 0xA0000#20, 0xFFFFF#20⟩,
    ⟨.rdst, 0xB0000#20, 0xFFFFF#20⟩, ⟨.srst, 0xF0000#20, 0xFFFFF#20⟩ ]

/-- The command word that a number given as `nbits` bits presents: the port is 20 bits wide (R60), so bits 19..0 of the
number are `cmd[19:0]`. Log entry 8. -/
def wordOfBits (nbits w : Nat) : CmdWord := BitVec.ofNat 20 (w % 2 ^ nbits)

/-- The command the decoder reads from the bits `w` of a row of the opcode table, in the table's own numbering, which is
that of R61. A number with a bit above bit 19 is no command word (R60) and is refused. Log entry 8. -/
def decodeTableWord (nbits w : Nat) : Option Instr :=
  if w % 2 ^ nbits < 2 ^ 20 then (decode (wordOfBits nbits w)).toOption else none

end Sys2Proof
end

