-- ==== Sys2Proof/Config.lean ====
section
/-! DEFINITION. The constants of the core, which nothing can change (00_scope.md R5), and the free values: what the
spec leaves unspecified has no body here, so no proof can rest on a number. The choices of R6 (method of the inverse,
lanes, visiting order) have no observable effect and are no parameter of the model. -/

namespace Sys2Proof

/-- The reduction polynomial x^8+x^4+x^3+x+1, 0x11B, 9 bits (R5). -/
def Config.modulus : BitVec 9 := 0x11B#9

/-- The low byte of the modulus, used by the multiplier's reduction step (R5). -/
def Config.reductionByte : Byte := 0x1B#8

/-- The affine constant (R5). -/
def Config.affineConstant : Byte := 0x63#8

/-- FREE VALUE: what hard reset and SRST leave in `SCORE` and `MAXBIAS`, "an implementation may leave any bit pattern
there" (10_state.md R31). Log entry 4. -/
opaque Config.unspecifiedByte : Nat → Byte

/-- FREE VALUE: the whole clock cycles between the acceptance of a command and its response's cycle, "finite and otherwise
unspecified" (30_encoding.md R73). Log entry 7. -/
opaque Config.latency : Nat → Nat

/-- FREE VALUE: how many cycles after the response's cycle `cmd_ready` stays 0: it returns to 1 "no earlier than that
cycle's end" (R73). Log entry 7. -/
opaque Config.readyDelay : Nat → Nat

end Sys2Proof
end

