-- ==== Sys2Proof/Machine/State.lean ====
section
/-! DEFINITION. The state of the core (10_state.md R20), the host's port at transaction level, the two command errors,
and the state after reset (R31). -/

namespace Sys2Proof.Machine

/-- The table memory (20_memory.md R40): (index, byte) cells. A listed index holds that byte and its written bit is 1; an
unlisted index holds no value and its written bit is 0 (10_state.md R22, R31). Log entry 2. -/
abbrev Memory := List Host.Cell

/-- The canonical form: indexes strictly rising, each inside the address space 0..255 (R40). Since an unlisted index
reads as no value, no cell equals what an unlisted index reads as. -/
abbrev Memory.wf (m : Memory) : Prop :=
  m.Pairwise (fun c d => c.1 < d.1) ∧ ∀ c ∈ m, c.1 < 256

/-- What the host can do to the core besides reading a response (00_scope.md R8). -/
inductive HostAction where
  /-- issue a command: present the word `cmd` (30_encoding.md R60, R73) -/
  | command (w : CmdWord)
  /-- assert hard reset, `rst` = 1 (70_reset_and_hazards.md R175), whether or not a command was in progress -/
  | hardReset
  deriving DecidableEq, Repr

/-- The two command errors of 60_exceptions.md R156. -/
inductive CmdError where
  /-- the word names no command, or an MBZ field is not zero -/
  | illegal
  /-- the command reads something not yet written -/
  | notReady
  deriving DecidableEq, Repr

/-- The state of the core. `sv` to `sbox` are the seven items of R20 (`sbox` holds `SBOX` and `SBV`); `rsp` and `input` are
the host's port at transaction level; `freeIdx` is the model's own. (The fields that an update fills with a long computation
stand after the flags, so that comparing a state with an updated one never starts on them.) -/
structure State where
  /-- the response word given by the latest step, if it gave one (30_encoding.md R66, R73) -/
  rsp : Option RspWord
  /-- `SV`, score valid (R23) -/
  sv : Bool
  /-- `ES`, sticky error (R24) -/
  es : Bool
  /-- `FE`, code of the first error (R24) -/
  fe : Nibble
  /-- `SCORE` (R23) -/
  score : Byte
  /-- `MAXBIAS` (R23) -/
  maxBias : Byte
  /-- `SBOX` and `SBV` (R21, R22) -/
  sbox : Memory
  /-- what the host does next, the next action first (00_scope.md R8); log entry 1 -/
  input : List HostAction
  /-- the MODEL's counter of the free values drawn so far; log entry 4 -/
  freeIdx : Nat
  deriving DecidableEq, Repr

/-- Why the machine stops with a fault. NOBODY raises one: an error of R156 is answered in its response and the core goes
on (R158), and "The core cannot hang and cannot deadlock" (70_reset_and_hazards.md R182). Log entry 6. -/
inductive Fault where
  deriving DecidableEq, Repr

/-- Why a step is refused. -/
inductive Refusal where
  /-- Raised by an arm of `exec` whose instruction has no meaning yet, under its mnemonic; safe (the model stops where the
  hardware goes on). No arm of this model raises it. -/
  | notModelled (mnemonic : String)
  deriving DecidableEq, Repr

/-- The reset state (R31, R176): no entry written, `SV` = 0, `ES` = 0, `FE` = 0x0. R31 leaves `SCORE` and `MAXBIAS`
unspecified: their 0 here is a DESIGN CHOICE (log entry 3), as is the counter's (log entry 4). No response stands and the
host has done nothing yet (log entries 1 and 11). -/
def State.reset : State where
  rsp := none
  sv := false
  es := false
  fe := 0x0#4
  score := 0x00#8
  maxBias := 0x00#8
  sbox := []
  input := []
  freeIdx := 0

end Sys2Proof.Machine
end

