-- ==== Sys2Proof/Machine/Ops.lean ====
section
/-! DEFINITION. The shared operations: reading and writing the table (20_memory.md R41), answering a command
(30_encoding.md R66), raising an error (60_exceptions.md R158) and taking the reset state (10_state.md R31). -/

namespace Sys2Proof.Machine

/-- The byte at an index, if one has been written. -/
def Memory.read : Memory → Nat → Option Byte
  | [], _ => none
  | c :: m, i => if c.1 = i then some c.2 else Memory.read m i

/-- The table with a byte written at an index, its cells kept in rising order. -/
def Memory.write : Memory → Nat → Byte → Memory
  | [], i, v => [(i, v)]
  | c :: m, i, v =>
    if i < c.1 then (i, v) :: c :: m
    else if i = c.1 then (i, v) :: m
    else c :: Memory.write m i v

/-- `MemRead(i, 1)` of R41: the entry, or nothing where its written bit is 0. The index is the address (R40, R46). -/
def State.memRead (s : State) (i : Byte) : Option Byte := Memory.read s.sbox i.toNat

/-- `MemWrite(i, 1, v)` of R41: `SBOX[i] <- v; SBV[i] <- 1`. -/
def State.memWrite (s : State) (i v : Byte) : State :=
  { s with sbox := Memory.write s.sbox i.toNat v }

/-- A response word `{ecode, data}` (R66). -/
def rspWord (ecode : Nibble) (data : Byte) : RspWord := (ecode ++ data : BitVec (4 + 8))

/-- The field `ecode` of a response word (R66). -/
def rspEcode (r : RspWord) : Nibble := r.extractLsb' 8 4

/-- The field `data` of a response word (R66). -/
def rspData (r : RspWord) : Byte := r.extractLsb' 0 8

/-- The error codes of R67. -/
def CmdError.code : CmdError → Nibble
  | .illegal => 0x1#4
  | .notReady => 0x2#4

/-- `respond OK, data = d` (R66): the response is `{0x0, d}`. -/
def State.respond (s : State) (d : Byte) : State :=
  { s with rsp := some (rspWord 0x0#4 d) }

/-- `raise E` (R158), the core's one way of taking an error: `FE` takes the code if `ES` was 0, `ES` becomes 1, the
response is `{code, 0x00}`, and nothing else changes. Nothing is ever returned from (R159). -/
def State.raise (s : State) (e : CmdError) : State :=
  { s with
    fe := if s.es then s.fe else e.code
    es := true
    rsp := some (rspWord e.code 0x00#8) }

/-- Taking the reset state of R31, by hard reset (R175) or SRST (R146): every written bit, `SV`, `ES` and `FE` are 0, the
table holds no value, and `SCORE` and `MAXBIAS` are unspecified: free values (log entry 4). -/
def State.enterReset (s : State) : State :=
  { s with
    sbox := []
    score := Config.unspecifiedByte s.freeIdx
    maxBias := Config.unspecifiedByte (s.freeIdx + 1)
    sv := false
    es := false
    fe := 0x0#4
    freeIdx := s.freeIdx + 2 }

/-- Hard reset (R175): the reset state, and no response, not even for a command in progress. The host's later actions are
the host's and stay. -/
def State.hardReset (s : State) : State := { s.enterReset with rsp := none }

/-- No action of the host: between commands the core is idle "with all state retained" (R171), and gives no response. -/
def State.idle (s : State) : State := { s with rsp := none }

end Sys2Proof.Machine
end

