-- ==== Sys2Proof/Machine/Operands.lean ====
section
/-! DEFINITION. The helper functions of 00_scope.md R12, on an operand as it stands in its field (30_encoding.md R62),
and the values an operand or a mask ranges over. -/

namespace Sys2Proof.Machine

/-- "the XOR of all its bits" (R12, R125). -/
def parity8 (x : Byte) : Bool :=
  x.getLsbD 0 ^^ x.getLsbD 1 ^^ x.getLsbD 2 ^^ x.getLsbD 3 ^^
    x.getLsbD 4 ^^ x.getLsbD 5 ^^ x.getLsbD 6 ^^ x.getLsbD 7

/-- "bitwise-AND-then-parity, the inner product over GF(2)^8" (R12). -/
def dot (m x : Byte) : Bool := parity8 (m &&& x)

/-- "the left shift by one, masked to 8 bits" (R12). -/
def shl1 (a : Byte) : Byte := a <<< 1

/-- "the bit shifted out" by `shl1` (R12). -/
def msb (a : Byte) : Bool := a.getLsbD 7

/-- The right shift by one, zero entering at bit 7 (R12). -/
def shr1 (b : Byte) : Byte := b >>> 1

/-- 0, 1, ..., 255: the indexes of the table and the inputs of the search. -/
def allBytes : List Byte := (List.range 256).map (BitVec.ofNat 8)

/-- 1, 2, ..., 255: the masks of the search, "zero masks are definitionally trivial and excluded" (R13, R128). -/
def nonzeroMasks : List Byte := (List.range' 1 255).map (BitVec.ofNat 8)

end Sys2Proof.Machine
end

