-- ==== Sys2Proof/Machine/Flags.lean ====
section
/-! DEFINITION. The flags of the core: the written bits and `TV` (10_state.md R22), the status byte (R25), and the
clearing of `SV` by a write to the table (R23). `ES` and `FE` are written by `State.raise` alone, but for reset. -/

namespace Sys2Proof.Machine

/-- `SBV[i]` (R22). -/
def State.written (s : State) (i : Byte) : Bool := (s.memRead i).isSome

/-- `TV` = `SBV[0]` & ... & `SBV[255]` (R22). -/
def State.tv (s : State) : Bool := decide (∀ i : Byte, s.written i = true)

/-- `STATUS` = `{FE, 0b0, ES, SV, TV}` (R25): a view, not state. -/
def State.statusByte (s : State) : Byte :=
  (s.fe ++ BitVec.ofBool false ++ BitVec.ofBool s.es ++ BitVec.ofBool s.sv ++ BitVec.ofBool s.tv :
    BitVec (4 + 1 + 1 + 1 + 1))

/-- `SV <- 0` (R114, as R111): the table has been written, so the score no longer describes it (R23). -/
def State.clearSv (s : State) : State := { s with sv := false }

end Sys2Proof.Machine
end

