-- ==== Sys2Proof/Machine/Nonlinearity.lean ====
section
/-! DEFINITION. Unit NLA: the non-linearity search and the commands NLA, RDSC and RDMB (44_nonlinearity.md). -/

namespace Sys2Proof.Machine

/-- A table of 256 bytes, the argument `T` of the search: a transient value, not state. -/
abbrev Table := Vector Byte 256

/-- `T[x]`. -/
def Table.entry (t : Table) (x : Byte) : Byte := t.get x.toFin

/-- `matches(T, u, v)` (R126): on how many of the 256 inputs x the approximation u·x = v·T[x] holds. -/
def matchCount (t : Table) (u v : Byte) : Nat :=
  allBytes.countP (fun x => dot u x == dot v (t.entry x))

/-- `bias(T, u, v)` (R127), over the integers. -/
def bias (t : Table) (u v : Byte) : Nat := ((matchCount t u v : Int) - 128).natAbs

/-- The running maximum over the 65,025 nonzero mask pairs, v outer and u inner, from 0 (R128; log entry 12). -/
def maxBiasOf (t : Table) : Nat :=
  nonzeroMasks.foldl (fun m v => nonzeroMasks.foldl (fun n u => max n (bias t u v)) m) 0

/-- The score of R128. -/
def scoreOf (t : Table) : Nat := 128 - maxBiasOf t

/-- All 256 entries, if every written bit is 1: the contents of `SBOX` that NLA reads through `MemRead` (R129). -/
def State.readTable (s : State) : Option Table :=
  if h : ∀ i : Byte, s.written i = true then
    some (Vector.ofFn fun k => (s.memRead (BitVec.ofFin k)).get (h (BitVec.ofFin k)))
  else none

/-- `MAXBIAS <- maxb; SCORE <- score; SV <- 1` (R129), the two registers always together (R23). -/
def State.setScore (s : State) (score maxBias : Byte) : State :=
  { s with maxBias := maxBias, score := score, sv := true }

/-- NLA (R129): NotReady while `TV` = 0; else the search, whose score is also the response. -/
def execNla (s : State) : Host.Outcome State Fault Refusal :=
  match s.readTable with
  | none => .next (s.raise .notReady)
  | some t =>
    let score := BitVec.ofNat 8 (scoreOf t)
    .next ((s.setScore score (BitVec.ofNat 8 (maxBiasOf t))).respond score)

/-- RDSC (R130). -/
def execRdsc (s : State) : Host.Outcome State Fault Refusal :=
  if s.sv then .next (s.respond s.score) else .next (s.raise .notReady)

/-- RDMB (R131). -/
def execRdmb (s : State) : Host.Outcome State Fault Refusal :=
  if s.sv then .next (s.respond s.maxBias) else .next (s.raise .notReady)

end Sys2Proof.Machine
end

