-- ==== Sys2Proof/Machine/Affine.lean ====
section
/-! DEFINITION. Unit AFF: the affine transform and the command AFFINE (42_affine.md). It uses neither FA nor INV
(00_scope.md R14). -/

namespace Sys2Proof.Machine

/-- Output bit `i` of R100 with constant `c`: input bits i, i+4, i+5, i+6, i+7 (mod 8) and bit i of the constant. -/
def affineBit (x c : Byte) (i : Nat) : Bool :=
  x.getLsbD i ^^ x.getLsbD ((i + 4) % 8) ^^ x.getLsbD ((i + 5) % 8) ^^ x.getLsbD ((i + 6) % 8) ^^
    x.getLsbD ((i + 7) % 8) ^^ c.getLsbD i

/-- Eight result bits as a byte, `f 7` at the top. -/
def byteOfBits (f : Nat → Bool) : Byte :=
  (BitVec.ofBool (f 7) ++ BitVec.ofBool (f 6) ++ BitVec.ofBool (f 5) ++ BitVec.ofBool (f 4) ++
    BitVec.ofBool (f 3) ++ BitVec.ofBool (f 2) ++ BitVec.ofBool (f 1) ++ BitVec.ofBool (f 0) :
    BitVec (1 + 1 + 1 + 1 + 1 + 1 + 1 + 1))

/-- `affine_c` (R103): the map of R100 with the constant `c`. The hardware computes it for 0x63 only. -/
def affineC (x c : Byte) : Byte := byteOfBits (affineBit x c)

/-- `affine` (R100). -/
def affineMap (x : Byte) : Byte := affineC x Config.affineConstant

/-- AFFINE a (R101). -/
def execAffine (a : Byte) (s : State) : Host.Outcome State Fault Refusal :=
  .next (s.respond (affineMap a))

end Sys2Proof.Machine
end

