-- ==== Sys2Proof/Machine/FieldArithmetic.lean ====
section
/-! DEFINITION. Unit FA: addition and multiplication in GF(2^8) and the commands GFADD and GFMUL
(40_field_arithmetic.md). -/

namespace Sys2Proof.Machine

/-- `gf_add` (R80): the addition of two polynomials over GF(2), bit by bit. -/
def gfAdd (a b : Byte) : Byte := a ^^^ b

/-- The left shift of the first operand with the reduction: "if the bit shifted out was set, XOR the result with 0x1B";
"the result" is the shifted operand (R82, 90_conflicts.md C1). -/
def mulReduce (p : Byte) : Byte :=
  if msb p then shl1 p ^^^ Config.reductionByte else shl1 p

/-- `k` iterations of the shift-and-reduce loop of R82 from the values `acc`, `p`, `q`. -/
def mulLoop : Nat → Byte → Byte → Byte → Byte
  | 0, acc, _, _ => acc
  | k + 1, acc, p, q =>
    mulLoop k (if q.getLsbD 0 then acc ^^^ p else acc) (mulReduce p) (shr1 q)

/-- `gf_mul` (R82): eight iterations, the accumulator from 0x00 (derived there; log entry 12). -/
def gfMul (a b : Byte) : Byte := mulLoop 8 0x00#8 a b

/-- GFADD a, b (R81). -/
def execGfadd (a b : Byte) (s : State) : Host.Outcome State Fault Refusal :=
  .next (s.respond (gfAdd a b))

/-- GFMUL a, b (R83): `a` is the operand shifted left and reduced, `b` the one shifted right and tested. -/
def execGfmul (a b : Byte) (s : State) : Host.Outcome State Fault Refusal :=
  .next (s.respond (gfMul a b))

end Sys2Proof.Machine
end

