-- ==== Sys2Proof/Machine/Inverse.lean ====
section
/-! DEFINITION. Unit INV: the multiplicative inverse and the command GFINV (41_inverse.md). -/

namespace Sys2Proof.Machine

/-- The running product of R90 after `k` multiplications by `a`, starting from 1. -/
def gfPow (a : Byte) : Nat → Byte
  | 0 => 0x01#8
  | k + 1 => gfMul (gfPow a k) a

/-- `gf_inv` (R90): a^254. Zero gives zero without a special case. -/
def gfInv (a : Byte) : Byte := gfPow a 254

/-- GFINV a (R91). -/
def execGfinv (a : Byte) (s : State) : Host.Outcome State Fault Refusal :=
  .next (s.respond (gfInv a))

end Sys2Proof.Machine
end

