-- ==== Sys2Proof/Machine/SboxGenerator.lean ====
section
/-! DEFINITION. Unit GEN: generation of the S-box and the commands GEN, RDSB and WRSB (43_sbox_generator.md). -/

namespace Sys2Proof.Machine

/-- Entry `i` of `sbox_gen()` (R110). -/
def sboxEntry (i : Byte) : Byte := affineMap (gfInv i)

/-- The table after the writes of GEN, `for i in 0..255: MemWrite(i, 1, affine(gf_inv(i)))` (R111). -/
def Memory.genAll (m : Memory) : Memory :=
  allBytes.foldl (fun t i => Memory.write t i.toNat (sboxEntry i)) m

/-- The state after the writes of GEN and `SV <- 0` (R111). -/
def State.genTable (s : State) : State := { s with sv := false, sbox := Memory.genAll s.sbox }

/-- GEN (R111). -/
def execGen (s : State) : Host.Outcome State Fault Refusal :=
  .next (s.genTable.respond 0x00#8)

/-- RDSB i (R113): the index is the effective address; an entry not yet written raises NotReady. -/
def execRdsb (i : Byte) (s : State) : Host.Outcome State Fault Refusal :=
  match s.memRead i with
  | none => .next (s.raise .notReady)
  | some v => .next (s.respond v)

/-- WRSB i, v (R114). -/
def execWrsb (i v : Byte) (s : State) : Host.Outcome State Fault Refusal :=
  .next ((s.memWrite i v).clearSv.respond 0x00#8)

end Sys2Proof.Machine
end

