-- ==== Sys2Proof/Machine/System.lean ====
section
/-! DEFINITION. The system commands RDST and SRST (45_system.md). -/

namespace Sys2Proof.Machine

/-- RDST (R145): the status byte before this RDST, which is also the one after it. -/
def execRdst (s : State) : Host.Outcome State Fault Refusal := .next (s.respond s.statusByte)

/-- SRST (R146): the reset state of 10_state.md R31, and a response. -/
def execSrst (s : State) : Host.Outcome State Fault Refusal := .next (s.enterReset.respond 0x00#8)

end Sys2Proof.Machine
end

