-- ==== Sys2Proof/Machine/Dispatch.lean ====
section
/-! DEFINITION. The meaning of every command: one arm a constructor of `Instr`, each a call of its own definition. -/

namespace Sys2Proof.Machine

/-- Performing a decoded command (30_encoding.md R65, step 3). -/
def exec (i : Instr) (s : State) : Host.Outcome State Fault Refusal :=
  match i with
  | .gfadd a b => Sys2Proof.Machine.execGfadd a b s
  | .gfmul a b => Sys2Proof.Machine.execGfmul a b s
  | .gfinv a => Sys2Proof.Machine.execGfinv a s
  | .affine a => Sys2Proof.Machine.execAffine a s
  | .gen => Sys2Proof.Machine.execGen s
  | .rdsb a => Sys2Proof.Machine.execRdsb a s
  | .wrsb a v => Sys2Proof.Machine.execWrsb a v s
  | .nla => Sys2Proof.Machine.execNla s
  | .rdsc => Sys2Proof.Machine.execRdsc s
  | .rdmb => Sys2Proof.Machine.execRdmb s
  | .rdst => Sys2Proof.Machine.execRdst s
  | .srst => Sys2Proof.Machine.execSrst s

end Sys2Proof.Machine
end

