-- ==== Sys2Proof/Machine/Perform.lean ====
section
/-! DEFINITION. One command word performed (30_encoding.md R65), and one action of the host (00_scope.md R8). -/

namespace Sys2Proof.Machine

/-- R65 for a word: decode it; an illegal word raises Illegal, before any state is read (R157); else the command's rule. -/
def perform (w : CmdWord) (s : State) : Host.Outcome State Fault Refusal :=
  match decode w with
  | .ok i => exec i s
  | .error _ => .next (s.raise .illegal)

/-- The core's answer to one action of the host (R8, R175). -/
def act (a : HostAction) (s : State) : Host.Outcome State Fault Refusal :=
  match a with
  | .command w => perform w s
  | .hardReset => .next s.hardReset

/-- The state with the host's first action taken off. -/
def State.popInput (s : State) : State := { s with input := s.input.tail }

/-- One transaction: take the host's next action and perform it completely (R8); with no action the core is idle (R171).
Log entries 1 and 5. -/
def transact (s : State) : Host.Outcome State Fault Refusal :=
  match s.input with
  | [] => .next s.idle
  | a :: _ => act a s.popInput

/-- The state in which the host's next action is to issue the command word `w`. -/
def State.presentWord (s : State) (w : CmdWord) : State := { s with input := .command w :: s.input }

end Sys2Proof.Machine
end

