-- ==== Sys2Proof/Machine/Step.lean ====
section
/-! DEFINITION. The step of the core: "take one command word from the host, perform that command completely, return one
response word" (00_scope.md R8). -/

namespace Sys2Proof.Machine

/-- One step of the core. -/
def step (s : State) : Host.Outcome State Fault Refusal := transact s

/-- `s` with a table-numbered word presented as the host's next command: nothing is fetched from a memory (20_memory.md
R51), so the next command is "whatever command word the host presents next" (10_state.md R28). Log entries 1 and 8. -/
def State.withFetchWord (s : State) (nbits w : Nat) : State := s.presentWord (wordOfBits nbits w)

end Sys2Proof.Machine
end

