-- ==== Sys2Proof/Machine/Assembler.lean ====
section
/-! DEFINITION. The assembler's form of a command (30_encoding.md R69) and the pseudo-instructions (R70): reading a line
of text, assembling a line, and writing a command as text. "No effect on the core" (92_eei_decisions.md D21). What R69
leaves open of the text (spaces around it, digits' case) is log entry 10. -/

namespace Sys2Proof.Machine

/-- The command a mnemonic and its operands stand for, in the forms of R69. -/
def instrOf : Mnemonic → List Nat → Option Instr
  | .gfadd, [a, b] => some (.gfadd (BitVec.ofNat 8 a) (BitVec.ofNat 8 b))
  | .gfmul, [a, b] => some (.gfmul (BitVec.ofNat 8 a) (BitVec.ofNat 8 b))
  | .gfinv, [a] => some (.gfinv (BitVec.ofNat 8 a))
  | .affine, [a] => some (.affine (BitVec.ofNat 8 a))
  | .gen, [] => some .gen
  | .rdsb, [i] => some (.rdsb (BitVec.ofNat 8 i))
  | .wrsb, [i, v] => some (.wrsb (BitVec.ofNat 8 i) (BitVec.ofNat 8 v))
  | .nla, [] => some .nla
  | .rdsc, [] => some .rdsc
  | .rdmb, [] => some .rdmb
  | .rdst, [] => some .rdst
  | .srst, [] => some .srst
  | _, _ => none

/-- The command words of a line (R69, R70): `{op, a, b}` with every unwritten field zero; `.word w` as it stands; `RUN` is
`GEN` then `NLA`; `GFSQR a` is `GFMUL a, a`. A line that is not well formed assembles to nothing. -/
def assemble (l : AsmLine) : Option (List CmdWord) :=
  if l.wf then
    match l with
    | .command m ops => (instrOf m ops).map (fun i => [encode i])
    | .word w => some [BitVec.ofNat 20 w]
    | .run => some [encode .gen, encode .nla]
    | .gfsqr a => some [encode (.gfmul (BitVec.ofNat 8 a) (BitVec.ofNat 8 a))]
  else none

/-- The mnemonics as written: upper case (R69). -/
def mnemonicText : Mnemonic → List Char
  | .gfadd => ['G', 'F', 'A', 'D', 'D']
  | .gfmul => ['G', 'F', 'M', 'U', 'L']
  | .gfinv => ['G', 'F', 'I', 'N', 'V']
  | .affine => ['A', 'F', 'F', 'I', 'N', 'E']
  | .gen => ['G', 'E', 'N']
  | .rdsb => ['R', 'D', 'S', 'B']
  | .wrsb => ['W', 'R', 'S', 'B']
  | .nla => ['N', 'L', 'A']
  | .rdsc => ['R', 'D', 'S', 'C']
  | .rdmb => ['R', 'D', 'M', 'B']
  | .rdst => ['R', 'D', 'S', 'T']
  | .srst => ['S', 'R', 'S', 'T']

/-- The twelve mnemonics. -/
def allMnemonics : List Mnemonic :=
  [.gfadd, .gfmul, .gfinv, .affine, .gen, .rdsb, .wrsb, .nla, .rdsc, .rdmb, .rdst, .srst]

/-- The digits of R10's notation, by value. -/
def digits : List Char :=
  ['0', '1', '2', '3', '4', '5', '6', '7', '8', '9', 'A', 'B', 'C', 'D', 'E', 'F']

/-- The value of a digit; a lower-case hexadecimal digit is read like its upper-case one (log entry 10). -/
def digitValue (c : Char) : Option Nat := digits.idxOf? c.toUpper

/-- A string of digits in a radix, continuing from `acc`. R10 and R69 do not say whether a number in a line may carry the digit
separator `_` that the spec's own text uses; DESIGN CHOICE: it may not, and such a line is unreadable (log entry 10). -/
def readDigits (radix : Nat) : List Char → Nat → Option Nat
  | [], acc => some acc
  | c :: cs, acc =>
    match digitValue c with
    | some d => if d < radix then readDigits radix cs (radix * acc + d) else none
    | none => none

/-- A nonempty string of digits. -/
def readNonempty (radix : Nat) (cs : List Char) : Option Nat :=
  if cs.isEmpty then none else readDigits radix cs 0

/-- A number of R10: `0x` hexadecimal, `0b` binary, anything else decimal. Leading zeros are allowed
(log entry 10). -/
def readNumber : List Char → Option Nat
  | '0' :: 'x' :: cs => readNonempty 16 cs
  | '0' :: 'b' :: cs => readNonempty 2 cs
  | cs => readNonempty 10 cs

/-- Operands "separated by a comma and a space" (R69); `cur` is the operand being read, reversed. -/
def splitOperands : List Char → List Char → List (List Char)
  | [], cur => [cur.reverse]
  | ',' :: ' ' :: cs, cur => cur.reverse :: splitOperands cs []
  | c :: cs, cur => splitOperands cs (c :: cur)

/-- The operands of a line: none, or numbers. -/
def readOperands (cs : List Char) : Option (List Nat) :=
  if cs.isEmpty then some [] else (splitOperands cs []).mapM readNumber

/-- A line without its comment, which runs "from `;` to the end of the line" (R69), and without spaces around it. -/
def stripLine (cs : List Char) : List Char :=
  let body := (cs.takeWhile (· != ';')).dropWhile (· == ' ')
  (body.reverse.dropWhile (· == ' ')).reverse

/-- What a line of text says. -/
inductive LineRead where
  /-- nothing: an empty line or a comment -/
  | blank
  /-- a line of the assembler's input, well formed or not -/
  | line (l : AsmLine)
  /-- no form of R69 or R70 -/
  | unreadable
  deriving DecidableEq, Repr

/-- The line a first word and its operands make. -/
def lineOf (word : List Char) (ops : List Nat) : LineRead :=
  match allMnemonics.find? (fun m => mnemonicText m == word) with
  | some m => .line (.command m ops)
  | none =>
    if word = ['.', 'w', 'o', 'r', 'd'] then
      match ops with
      | [w] => .line (.word w)
      | _ => .unreadable
    else if word = ['R', 'U', 'N'] then
      match ops with
      | [] => .line .run
      | _ => .unreadable
    else if word = ['G', 'F', 'S', 'Q', 'R'] then
      match ops with
      | [a] => .line (.gfsqr a)
      | _ => .unreadable
    else .unreadable

/-- Reading one line of text (R69). -/
def readLine (cs : List Char) : LineRead :=
  let body := stripLine cs
  if body.isEmpty then .blank
  else
    match readOperands ((body.dropWhile (· != ' ')).drop 1) with
    | some ops => lineOf (body.takeWhile (· != ' ')) ops
    | none => .unreadable

/-- A digit as text. -/
def digitText (n : Nat) : Char := digits.getD n '0'

/-- A byte as the spec's examples write it: `0x` and two digits. -/
def byteText (x : Byte) : List Char :=
  ['0', 'x', digitText (x.toNat / 16), digitText (x.toNat % 16)]

/-- The operands of a command that are written; an MBZ field is not (R69). -/
def writtenOperands : Instr → List Byte
  | .gfadd a b => [a, b]
  | .gfmul a b => [a, b]
  | .gfinv a => [a]
  | .affine a => [a]
  | .gen => []
  | .rdsb i => [i]
  | .wrsb i v => [i, v]
  | .nla => []
  | .rdsc => []
  | .rdmb => []
  | .rdst => []
  | .srst => []

/-- A command as text (R69). -/
def instrText (i : Instr) : List Char :=
  match writtenOperands i with
  | [] => mnemonicText i.mnemonic
  | ops => mnemonicText i.mnemonic ++ [' '] ++ List.intercalate [',', ' '] (ops.map byteText)

end Sys2Proof.Machine
end

