-- ==== Sys2Proof/Machine/Port.lean ====
section
/-! DEFINITION. The port of the core seen at the rising edges of `clk`: the signals of 30_encoding.md R72, the handshake
of R73 and R74, and hard reset, also in the middle of a command (70_reset_and_hazards.md R175). It stands over the
transaction-level core: a command is performed by `perform`, as in `step`, and only waits are added, which R73 leaves
finite and unspecified (free values; log entry 7). -/

namespace Sys2Proof.Machine

/-- The input signals of R72 sampled at one rising edge of `clk`. -/
structure PortIn where
  /-- hard reset, active high -/
  rst : Bool
  /-- the host presents a command -/
  cmdValid : Bool
  /-- the word it presents; read only where `cmdValid` is 1 (93_implementation_defined.md U14) -/
  cmd : CmdWord
  deriving DecidableEq, Repr

/-- Where the port stands in the handshake of R73. -/
inductive Phase where
  /-- idle, a command can be accepted (R171) -/
  | ready
  /-- the word `w` has been accepted; `left` more edges pass before the one at which its response begins -/
  | busy (w : CmdWord) (left : Nat)
  /-- the one cycle in which the response is given -/
  | responding
  /-- the response has been given and `cmd_ready` has not yet returned to 1 -/
  | recovering (left : Nat)
  deriving DecidableEq, Repr

/-- The core with its port. -/
structure Port where
  /-- the architectural state -/
  core : State
  /-- the port's place in the handshake -/
  phase : Phase
  /-- the MODEL's counter of the waits drawn so far; log entry 7 -/
  draws : Nat
  deriving DecidableEq, Repr

/-- The output `cmd_ready` (R73): 1 between commands, 0 from acceptance until after the response, 0 while `rst` = 1. -/
def cmdReady (i : PortIn) (p : Port) : Bool := !i.rst && p.phase == .ready

/-- The output `rsp_valid` (R73): 1 for exactly one cycle a command, 0 while `rst` = 1. -/
def rspValid (i : PortIn) (p : Port) : Bool := !i.rst && p.phase == .responding

/-- The output `rsp`, which carries a response word only while `rsp_valid` = 1 (R73, U14). -/
def rspOut (i : PortIn) (p : Port) : Option RspWord := if rspValid i p then p.core.rsp else none

/-- "A command is accepted on a rising edge of `clk` at which `cmd_valid` = 1, `cmd_ready` = 1 and `rst` = 0" (R73). -/
def accepts (i : PortIn) (p : Port) : Bool := i.cmdValid && cmdReady i p

/-- The wait after a response, `n` more edges before `cmd_ready` returns to 1. -/
def phaseAfter : Nat → Phase
  | 0 => .ready
  | n + 1 => .recovering n

/-- The end of a busy wait: the accepted word is performed and its response stands. -/
def Port.complete (p : Port) (w : CmdWord) : Host.Outcome Port Fault Refusal :=
  match perform w p.core with
  | .next s => .next { p with core := s, phase := .responding }
  | .fault f => .fault f
  | .refused r => .refused r

/-- The accepting edge: the response begins at it if the wait is 0, and after the wait otherwise. -/
def Port.accept (p : Port) (w : CmdWord) : Nat → Host.Outcome Port Fault Refusal
  | 0 => p.complete w
  | n + 1 => .next { p with phase := .busy w n }

/-- One rising edge of `clk` without reset. -/
def Port.edge (i : PortIn) (p : Port) : Host.Outcome Port Fault Refusal :=
  match p.phase with
  | .ready =>
    if accepts i p then { p with draws := p.draws + 1 }.accept i.cmd (Config.latency p.draws)
    else .next p
  | .busy w 0 => p.complete w
  | .busy w (n + 1) => .next { p with phase := .busy w n }
  | .responding =>
    .next { p with phase := phaseAfter (Config.readyDelay p.draws), draws := p.draws + 1 }
  | .recovering n => .next { p with phase := phaseAfter n }

/-- One rising edge of `clk`: with `rst` = 1 the core takes the reset state and a command in progress is abandoned without
a response (R175); what a command in progress would have written is not in the state, so none of it is left behind. -/
def clockEdge (i : PortIn) (p : Port) : Host.Outcome Port Fault Refusal :=
  if i.rst then .next { p with core := p.core.hardReset, phase := .ready } else p.edge i

/-- Rising edges one after another. -/
def clockEdges : List PortIn → Port → Host.Outcome Port Fault Refusal
  | [], p => .next p
  | i :: is, p =>
    match clockEdge i p with
    | .next q => clockEdges is q
    | .fault f => .fault f
    | .refused r => .refused r

/-- The port after reset (R175). -/
def Port.reset : Port := { core := State.reset, phase := .ready, draws := 0 }

/-- What the host owes between two edges (R74): a word that waits (`cmd_valid` = 1 and `cmd_ready` = 0 at the first edge) is
not changed at the second. R74 leaves open whether the host may lower `cmd_valid` before acceptance: DESIGN CHOICE, it may, and
then `cmd` is free, since the core does not read it (log entry 7). -/
def hostHolds (i j : PortIn) (p : Port) : Bool :=
  !(i.cmdValid && !cmdReady i p) || !j.cmdValid || j.cmd == i.cmd

end Sys2Proof.Machine
end

