-- ==== Sys2Proof/Machine/Reference.lean ====
section
/-! DEFINITION. The second definitions that the spec gives of its functions, written from their own rules and used by no
meaning: the polynomial product (40_field_arithmetic.md R86), square-and-multiply (41_inverse.md R93), the forms of the
affine map (42_affine.md R102), the variant table (R103), the search in another order (44_nonlinearity.md R133) and the
table of 95_test_vectors.md section 5.2. -/

namespace Sys2Proof.Machine

/-- The carry-less product of R86, of degree at most 14: the XOR over the set bits i of b of a << i. -/
def clmul (a b : Byte) : BitVec 16 :=
  (List.range 8).foldl (fun c i => if b.getLsbD i then c ^^^ (a.setWidth 16 <<< i) else c) 0#16

/-- The reduction of R86: for i from 14 down to 8, if c[i] = 1 then c <- c ^ (0x11B << (i - 8)). -/
def polyReduce (c : BitVec 16) : BitVec 16 :=
  [14, 13, 12, 11, 10, 9, 8].foldl
    (fun c i => if c.getLsbD i then c ^^^ (Config.modulus.setWidth 16 <<< (i - 8)) else c) c

/-- `c[7:0]` after the reduction: polynomial multiplication modulo the modulus (R86). -/
def polyMul (a b : Byte) : Byte := (polyReduce (clmul a b)).setWidth 8

/-- The square-and-multiply schedule of R93 over the bits 7 down to 0 of 254. -/
def gfInvSquareMultiply (a : Byte) : Byte :=
  [7, 6, 5, 4, 3, 2, 1, 0].foldl
    (fun r k =>
      let r2 := gfMul r r
      if (254#8 : Byte).getLsbD k then gfMul r2 a else r2) 0x01#8

/-- The row masks of R102 (a). -/
def rowMask (i : Nat) : Byte :=
  [0xF1#8, 0xE3#8, 0xC7#8, 0x8F#8, 0x1F#8, 0x3E#8, 0x7C#8, 0xF8#8].getD i 0x00#8

/-- R102 (a): bit i is `parity8(x & ROW[i]) ^ C[i]`. -/
def affineByRows (x : Byte) : Byte :=
  byteOfBits (fun i => parity8 (x &&& rowMask i) ^^ Config.affineConstant.getLsbD i)

/-- R102 (b): x and its rotations by 1 to 4, and the constant. -/
def affineByRotations (x : Byte) : Byte :=
  x ^^^ x.rotateLeft 1 ^^^ x.rotateLeft 2 ^^^ x.rotateLeft 3 ^^^ x.rotateLeft 4 ^^^ Config.affineConstant

/-- Entry `i` of the S-box built with another affine constant (R103). -/
def variantEntry (c i : Byte) : Byte := affineC (gfInv i) c

/-- `sbox_gen()` as a table (R110). -/
def sboxGen : Table := Vector.ofFn fun k => sboxEntry (BitVec.ofFin k)

/-- The maximum bias found by visiting the mask pairs `(u, v)` in the order of a list (R133). -/
def maxBiasInOrder (t : Table) (pairs : List (Byte × Byte)) : Nat :=
  pairs.foldl (fun m p => max m (bias t p.1 p.2)) 0

/-- The table of 95_test_vectors.md section 5.2, row by row. -/
def listedSbox : List Nat :=
  [0x63, 0x7C, 0x77, 0x7B, 0xF2, 0x6B, 0x6F, 0xC5, 0x30, 0x01, 0x67, 0x2B, 0xFE, 0xD7, 0xAB, 0x76] ++
  [0xCA, 0x82, 0xC9, 0x7D, 0xFA, 0x59, 0x47, 0xF0, 0xAD, 0xD4, 0xA2, 0xAF, 0x9C, 0xA4, 0x72, 0xC0] ++
  [0xB7, 0xFD, 0x93, 0x26, 0x36, 0x3F, 0xF7, 0xCC, 0x34, 0xA5, 0xE5, 0xF1, 0x71, 0xD8, 0x31, 0x15] ++
  [0x04, 0xC7, 0x23, 0xC3, 0x18, 0x96, 0x05, 0x9A, 0x07, 0x12, 0x80, 0xE2, 0xEB, 0x27, 0xB2, 0x75] ++
  [0x09, 0x83, 0x2C, 0x1A, 0x1B, 0x6E, 0x5A, 0xA0, 0x52, 0x3B, 0xD6, 0xB3, 0x29, 0xE3, 0x2F, 0x84] ++
  [0x53, 0xD1, 0x00, 0xED, 0x20, 0xFC, 0xB1, 0x5B, 0x6A, 0xCB, 0xBE, 0x39, 0x4A, 0x4C, 0x58, 0xCF] ++
  [0xD0, 0xEF, 0xAA, 0xFB, 0x43, 0x4D, 0x33, 0x85, 0x45, 0xF9, 0x02, 0x7F, 0x50, 0x3C, 0x9F, 0xA8] ++
  [0x51, 0xA3, 0x40, 0x8F, 0x92, 0x9D, 0x38, 0xF5, 0xBC, 0xB6, 0xDA, 0x21, 0x10, 0xFF, 0xF3, 0xD2] ++
  [0xCD, 0x0C, 0x13, 0xEC, 0x5F, 0x97, 0x44, 0x17, 0xC4, 0xA7, 0x7E, 0x3D, 0x64, 0x5D, 0x19, 0x73] ++
  [0x60, 0x81, 0x4F, 0xDC, 0x22, 0x2A, 0x90, 0x88, 0x46, 0xEE, 0xB8, 0x14, 0xDE, 0x5E, 0x0B, 0xDB] ++
  [0xE0, 0x32, 0x3A, 0x0A, 0x49, 0x06, 0x24, 0x5C, 0xC2, 0xD3, 0xAC, 0x62, 0x91, 0x95, 0xE4, 0x79] ++
  [0xE7, 0xC8, 0x37, 0x6D, 0x8D, 0xD5, 0x4E, 0xA9, 0x6C, 0x56, 0xF4, 0xEA, 0x65, 0x7A, 0xAE, 0x08] ++
  [0xBA, 0x78, 0x25, 0x2E, 0x1C, 0xA6, 0xB4, 0xC6, 0xE8, 0xDD, 0x74, 0x1F, 0x4B, 0xBD, 0x8B, 0x8A] ++
  [0x70, 0x3E, 0xB5, 0x66, 0x48, 0x03, 0xF6, 0x0E, 0x61, 0x35, 0x57, 0xB9, 0x86, 0xC1, 0x1D, 0x9E] ++
  [0xE1, 0xF8, 0x98, 0x11, 0x69, 0xD9, 0x8E, 0x94, 0x9B, 0x1E, 0x87, 0xE9, 0xCE, 0x55, 0x28, 0xDF] ++
  [0x8C, 0xA1, 0x89, 0x0D, 0xBF, 0xE6, 0x42, 0x68, 0x41, 0x99, 0x2D, 0x0F, 0xB0, 0x54, 0xBB, 0x16]

end Sys2Proof.Machine
end

