-- ==== Sys2Proof/Safety.lean ====
section
/-! DEFINITION. The terms the statements use: what leaves the state alone, what an error answers, the invariants of
10_state.md R32, and a run without errors (60_exceptions.md R162). -/

namespace Sys2Proof.Machine

/-- `t` differs from `s` in the response at most: every entry and every written bit of the table reads as before, and
every register, flag and host action is as before. -/
structure Unchanged (s t : State) : Prop where
  /-- `SBOX` and `SBV`, entry by entry -/
  table : ∀ i : Byte, t.memRead i = s.memRead i
  /-- `SCORE` -/
  score : t.score = s.score
  /-- `MAXBIAS` -/
  maxBias : t.maxBias = s.maxBias
  /-- `SV` -/
  sv : t.sv = s.sv
  /-- `ES` -/
  es : t.es = s.es
  /-- `FE` -/
  fe : t.fe = s.fe
  /-- the host's later actions -/
  input : t.input = s.input

/-- `t` is what an error of code `c` makes of `s` (60_exceptions.md R158). -/
structure ErrorEffect (c : Nibble) (s t : State) : Prop where
  /-- the response is `{c, 0x00}` -/
  rsp : t.rsp = some (rspWord c 0x00#8)
  /-- `ES <- 1` -/
  es : t.es = true
  /-- `if ES = 0: FE <- c` -/
  fe : t.fe = if s.es then s.fe else c
  /-- `SBOX` and `SBV` exactly as before -/
  table : ∀ i : Byte, t.memRead i = s.memRead i
  /-- `SCORE` exactly as before -/
  score : t.score = s.score
  /-- `MAXBIAS` exactly as before -/
  maxBias : t.maxBias = s.maxBias
  /-- `SV` exactly as before -/
  sv : t.sv = s.sv
  /-- the host's later actions are as before -/
  input : t.input = s.input

/-- The word `w` raises the Illegal error in state `s`. -/
def RaisesIllegal (w : CmdWord) (s : State) : Prop :=
  ∃ t, perform w s = .next t ∧ ErrorEffect 0x1#4 s t

/-- A command that writes nothing and answers `d`. -/
def AnswersOnly (i : Instr) (s : State) (d : Byte) : Prop :=
  ∃ t, exec i s = .next t ∧ t.rsp = some (rspWord 0x0#4 d) ∧ Unchanged s t

/-- The reset state of 10_state.md R31 in everything it specifies. -/
structure InResetState (s : State) : Prop where
  /-- `SBV[i]` = 0 for every i: no entry of `SBOX` holds a value -/
  unwritten : ∀ i : Byte, s.memRead i = none
  /-- `SV` = 0 -/
  sv : s.sv = false
  /-- `ES` = 0 -/
  es : s.es = false
  /-- `FE` = 0x0 -/
  fe : s.fe = 0x0#4

/-- The invariants of R32 (a) to (c), and the canonical form of the table memory. -/
structure Invariant (s : State) : Prop where
  /-- the table memory is in canonical form, inside the address space -/
  canonical : Memory.wf s.sbox
  /-- (a) `SV` = 1 implies `TV` = 1 -/
  scoreNeedsTable : s.sv = true → s.tv = true
  /-- (b) `SV` = 1: the two registers describe the current contents of the table -/
  scoreCurrent : s.sv = true → ∀ t, s.readTable = some t →
    s.maxBias.toNat = maxBiasOf t ∧ s.score.toNat = 128 - s.maxBias.toNat ∧ s.maxBias.toNat ≤ 128
  /-- (c) `ES` = 0 if and only if `FE` = 0x0 -/
  noErrorNoCode : s.es = false ↔ s.fe = 0x0#4
  /-- (c) `FE` is one of 0x0, 0x1, 0x2 -/
  codes : s.fe = 0x0#4 ∨ s.fe = 0x1#4 ∨ s.fe = 0x2#4

/-- The host's next action is a reset: hard reset, or the command SRST. -/
def nextActionResets (s : State) : Prop :=
  ∃ rest, s.input = .hardReset :: rest ∨ s.input = .command 0xF0000#20 :: rest

/-- Two states that a host cannot tell apart: they agree in all that R31 specifies, and in `SCORE` and `MAXBIAS` where
`SV` = 1. -/
structure Indistinguishable (s t : State) : Prop where
  /-- `SBOX` and `SBV` -/
  table : ∀ i : Byte, t.memRead i = s.memRead i
  /-- `SV` -/
  sv : t.sv = s.sv
  /-- `ES` -/
  es : t.es = s.es
  /-- `FE` -/
  fe : t.fe = s.fe
  /-- `SCORE`, where it is valid -/
  score : s.sv = true → t.score = s.score
  /-- `MAXBIAS`, where it is valid -/
  maxBias : s.sv = true → t.maxBias = s.maxBias
  /-- the host does the same -/
  input : t.input = s.input

/-- No error has been recorded since reset (10_state.md R24). A safe run starts with `ES` = 0 and ends with `ES` = 0
(60_exceptions.md R162). -/
def State.errorFree (s : State) : Prop := s.es = false

/-- A word is illegal in the words of 30_encoding.md R64: (a) `op` is 0x0, 0xC, 0xD or 0xE, or (b) `op` names a command
and a field that command marks MBZ is not zero, the MBZ fields as 60_exceptions.md R156 lists them. -/
def IllegalWord (w : CmdWord) : Prop :=
  let op := w.extractLsb' 16 4
  let a := w.extractLsb' 8 8
  let b := w.extractLsb' 0 8
  op ∈ [0x0#4, 0xC#4, 0xD#4, 0xE#4] ∨
  (op ∈ [0x3#4, 0x4#4, 0x6#4] ∧ b ≠ 0x00#8) ∨
  (op ∈ [0x5#4, 0x8#4, 0x9#4, 0xA#4, 0xB#4, 0xF#4] ∧ (a ≠ 0x00#8 ∨ b ≠ 0x00#8))

/-- What a legal command needs and does not find (60_exceptions.md R156, the rows of NotReady). -/
def NotReadyFor (i : Instr) (s : State) : Prop :=
  match i with
  | .rdsb j => s.written j = false
  | .nla => s.tv = false
  | .rdsc => s.sv = false
  | .rdmb => s.sv = false
  | .gfadd _ _ => False
  | .gfmul _ _ => False
  | .gfinv _ => False
  | .affine _ => False
  | .gen => False
  | .wrsb _ _ => False
  | .rdst => False
  | .srst => False

end Sys2Proof.Machine
end

