-- ==== Sys2Proof/Certificates/Slice0/Obligations.lean ====
section
/-! DEFINITION. The statements for the provers. Each docstring names the rule of the spec it formalises. -/

open Sys2Proof Sys2Proof.Machine

/-! ### Encoding -/

/-- Decoding the word of any command gives the command back, with every operand at every value (30_encoding.md R61 to
R65). -/
def Obligations.EveryCommandSurvivesEncodeThenDecode : Prop :=
  ∀ i : Instr, decode (encode i) = .ok i

/-- A word that decodes is the word of the command it decodes to: no bit of a word is dropped (R61 to R65). -/
def Obligations.ADecodedWordIsTheWordOfItsCommand : Prop :=
  ∀ (w : CmdWord) (i : Instr), decode w = .ok i → encode i = w

/-- R64 and R147: the illegal words in the rule's own words are exactly those that decode to no command and exactly those
that no row of the opcode table accepts; each raises Illegal in every state, with response 0x100 and nothing changed but
the error flags; the all-zero word is one of them. -/
def Obligations.IllegalWordsRaiseIllegalAndChangeNothingElse : Prop :=
  (∀ w : CmdWord, IllegalWord w ↔ ∀ i, decode w ≠ .ok i) ∧
  (∀ w : CmdWord, IllegalWord w ↔ ∀ r ∈ opTable, r.accepts w = false) ∧
  (∀ w : CmdWord, IllegalWord w ↔ (fieldsOf w).wf = false) ∧
  (∀ (w : CmdWord) (s : State), IllegalWord w →
    ∃ t, perform w s = .next t ∧ ErrorEffect 0x1#4 s t ∧ t.rsp = some 0x100#12) ∧
  IllegalWord 0x00000#20

/-- R65: for every word, either no row of the opcode table accepts it and Illegal is raised in whatever state, or exactly
one row accepts it, the word decodes to a command of that row with operands w[15:8] and w[7:0], and it is performed. -/
def Obligations.DecodingIsTotalAndFindsTheOneMatchingRow : Prop :=
  ∀ (w : CmdWord),
    ((∀ r ∈ opTable, r.accepts w = false) ∧ (∀ s, perform w s = .next (s.raise .illegal))) ∨
    (∃ r ∈ opTable, r.accepts w = true ∧ (∀ q ∈ opTable, q.accepts w = true → q = r) ∧
      ∃ i, decode w = .ok i ∧ i.mnemonic = r.mnemonic ∧
        fieldsOfInstr i = ⟨w.extractLsb' 16 4, w.extractLsb' 8 8, w.extractLsb' 0 8⟩ ∧
        ∀ s, perform w s = exec i s)

/-- Words written out from R63 and the decode vectors of 95_test_vectors.md section 7, one or more a family. Of the last three
words the spec says only that they are illegal; the reason the decoder names is the model's choice (log entry 13). -/
def Obligations.WordsOfTheSpecDecodeAsListed : Prop :=
  decode 0x15783#20 = .ok (.gfadd 0x57#8 0x83#8) ∧
  decode 0x25783#20 = .ok (.gfmul 0x57#8 0x83#8) ∧
  decode 0x35300#20 = .ok (.gfinv 0x53#8) ∧
  decode 0x4CA00#20 = .ok (.affine 0xCA#8) ∧
  decode 0x50000#20 = .ok .gen ∧
  decode 0x6FF00#20 = .ok (.rdsb 0xFF#8) ∧
  decode 0x710AB#20 = .ok (.wrsb 0x10#8 0xAB#8) ∧
  decode 0x80000#20 = .ok .nla ∧
  decode 0x90000#20 = .ok .rdsc ∧
  decode 0xA0000#20 = .ok .rdmb ∧
  decode 0xB0000#20 = .ok .rdst ∧
  decode 0xF0000#20 = .ok .srst ∧
  decode 0x60001#20 = .error (.nonzeroB 0x01#8) ∧
  decode 0xF0100#20 = .error (.nonzeroA 0x01#8) ∧
  decode 0xC1234#20 = .error (.reservedOpcode 0xC#4)

/-- From R66 and R67 (30_encoding.md section 3): a response word is `{ecode, data}`, ecode in bits 11:8 and data in bits 7:0;
every word the host presents, legal or not, gets exactly one response, whose ecode is 0x0, 0x1 or 0x2 and whose data is 0x00
unless ecode is 0x0. -/
def Obligations.EveryCommandGetsOneResponseOfTheThreeCodes : Prop :=
  (∀ (e : Nibble) (d : Byte), (rspWord e d).toNat = e.toNat * 256 + d.toNat ∧
    rspEcode (rspWord e d) = e ∧ rspData (rspWord e d) = d) ∧
  (∀ (w : CmdWord) (s : State), ∃ t r, perform w s = .next t ∧ t.rsp = some r ∧
    (rspEcode r = 0x0#4 ∨ rspEcode r = 0x1#4 ∨ rspEcode r = 0x2#4) ∧
    (rspEcode r ≠ 0x0#4 → rspData r = 0x00#8))

/-! ### The step -/

/-- From R8 and R65: a step runs the command that the presented word decodes to, and raises Illegal where the word is illegal.
That the host's actions are a list and the step takes its first element off is the model's choice (log entry 1), and so is the
third clause, by which a number placed by `withFetchWord` is what the next step runs (log entries 1 and 8). -/
def Obligations.AStepRunsTheDecodedCommand : Prop :=
  (∀ (s : State) (w : CmdWord) (rest : List HostAction) (i : Instr),
    s.input = .command w :: rest → decode w = .ok i → step s = exec i { s with input := rest }) ∧
  (∀ (s : State) (w : CmdWord) (rest : List HostAction),
    s.input = .command w :: rest → (∀ i, decode w ≠ .ok i) →
      step s = .next (({ s with input := rest } : State).raise .illegal)) ∧
  (∀ (s : State) (nbits w : Nat) (i : Instr),
    decodeTableWord nbits w = some i → step (s.withFetchWord nbits w) = exec i s)

/-- From R171 and R175: with no action of the host the core keeps all of its state and gives no response; hard reset takes the
reset state, gives no response and leaves the host's later actions. A step without a command is the model's reading (log entry
5), hard reset as an action that leaves the later ones its choice (log entry 9), and so is `rsp` = none for no response (log
entry 11). -/
def Obligations.IdleKeepsTheStateAndHardResetTakesTheResetState : Prop :=
  (∀ s : State, s.input = [] → ∃ t, step s = .next t ∧ Unchanged s t ∧ t.rsp = none) ∧
  (∀ (s : State) (rest : List HostAction), s.input = .hardReset :: rest →
    ∃ t, step s = .next t ∧ InResetState t ∧ t.rsp = none ∧ t.input = rest)

/-- From R182 and R148: every command, legal or not, completes and gives its response, in every state and for every operand,
and no step hangs. -/
def Obligations.EveryCommandCompletesWithAResponse : Prop :=
  (∀ (i : Instr) (s : State), ∃ t r, exec i s = .next t ∧ t.rsp = some r) ∧
  (∀ (w : CmdWord) (s : State), ∃ t r, perform w s = .next t ∧ t.rsp = some r) ∧
  (∀ s : State, ∃ t, step s = .next t)

/-! ### Unit FA -/

/-- R81: GFADD a, b. Its word, its response a ^ b in every state, nothing written, the rule's corner cases and its example. -/
def Obligations.GfaddAnswersTheXorAndWritesNothing : Prop :=
  (∀ a b : Byte, encode (.gfadd a b) = BitVec.ofNat 20 (0x10000 + a.toNat * 256 + b.toNat)) ∧
  (∀ (a b : Byte) (s : State), AnswersOnly (.gfadd a b) s (a ^^^ b)) ∧
  (∀ (a : Byte) (s : State), AnswersOnly (.gfadd a 0x00#8) s a ∧ AnswersOnly (.gfadd a a) s 0x00#8) ∧
  (∀ s : State, ∃ t, perform 0x15783#20 s = .next t ∧ t.rsp = some 0x0D4#12)

/-- R84: addition is commutative, associative and self-inverse, and 0 is its identity. -/
def Obligations.FieldAdditionLaws : Prop :=
  ∀ a b c : Byte, gfAdd a b = gfAdd b a ∧ gfAdd (gfAdd a b) c = gfAdd a (gfAdd b c) ∧
    gfAdd a a = 0x00#8 ∧ gfAdd a 0x00#8 = a ∧ gfAdd (gfAdd a b) b = a

/-- GFMUL a, b (40_field_arithmetic.md section 2): its word, its response gf_mul(a, b) in every state, nothing written, and
the corner cases; 0x00 only where an operand is 0x00. -/
def Obligations.GfmulAnswersTheProductAndWritesNothing : Prop :=
  (∀ a b : Byte, encode (.gfmul a b) = BitVec.ofNat 20 (0x20000 + a.toNat * 256 + b.toNat)) ∧
  (∀ (a b : Byte) (s : State), AnswersOnly (.gfmul a b) s (gfMul a b)) ∧
  (∀ a b : Byte, gfMul a b = 0x00#8 ↔ a = 0x00#8 ∨ b = 0x00#8) ∧
  gfMul 0x80#8 0x02#8 = 0x1B#8 ∧ gfMul 0xFF#8 0xFF#8 = 0x13#8 ∧
  (∀ s : State, ∃ t, perform 0x25783#20 s = .next t ∧ t.rsp = some 0x0C1#12)

/-- From R85 (all of it but the uniqueness it quotes): multiplication is commutative, distributes over addition, is associative,
has identity 0x01, and 0x00 annihilates. -/
def Obligations.FieldMultiplicationLaws : Prop :=
  ∀ a b c : Byte, gfMul a b = gfMul b a ∧
    gfMul a (gfAdd b c) = gfAdd (gfMul a b) (gfMul a c) ∧
    gfMul (gfMul a b) c = gfMul a (gfMul b c) ∧
    gfMul a 0x01#8 = a ∧ gfMul a 0x00#8 = 0x00#8

/-- R86: the shift-and-reduce loop computes polynomial multiplication modulo x^8+x^4+x^3+x+1. -/
def Obligations.MultiplicationIsPolynomialMultiplicationModuloTheModulus : Prop :=
  ∀ a b : Byte, gfMul a b = polyMul a b

/-! ### Unit INV -/

/-- R91: GFINV a. Its word, its response gf_inv(a) in every state, nothing written; Illegal for every nonzero b; the corner
cases, the inverse of the inverse among them, and the example with its check. -/
def Obligations.GfinvAnswersTheInverseAndWritesNothing : Prop :=
  (∀ a : Byte, encode (.gfinv a) = BitVec.ofNat 20 (0x30000 + a.toNat * 256)) ∧
  (∀ (a : Byte) (s : State), AnswersOnly (.gfinv a) s (gfInv a)) ∧
  (∀ (a b : Byte) (s : State), b ≠ 0x00#8 →
    RaisesIllegal (BitVec.ofNat 20 (0x30000 + a.toNat * 256 + b.toNat)) s) ∧
  gfInv 0x00#8 = 0x00#8 ∧ gfInv 0x01#8 = 0x01#8 ∧ gfInv 0x02#8 = 0x8D#8 ∧ gfInv 0xFF#8 = 0x1C#8 ∧
  (∀ a : Byte, gfInv (gfInv a) = a) ∧
  (∀ s : State, ∃ t, perform 0x35300#20 s = .next t ∧ t.rsp = some 0x0CA#12) ∧
  (∀ s : State, ∃ t, perform 0x253CA#20 s = .next t ∧ t.rsp = some 0x001#12)

/-- R92: the product of a nonzero element and its inverse is 1, the inverse of 0 is 0, and inversion is its own inverse and a
bijection. -/
def Obligations.InverseLaws : Prop :=
  (∀ a : Byte, a ≠ 0x00#8 → gfMul a (gfInv a) = 0x01#8) ∧ gfInv 0x00#8 = 0x00#8 ∧
  (∀ a : Byte, gfInv (gfInv a) = a) ∧ Function.Bijective gfInv

/-- The square-and-multiply schedule of 41_inverse.md R93 gives the same inverse for every element. -/
def Obligations.SquareAndMultiplyGivesTheSameInverse : Prop :=
  ∀ a : Byte, gfInvSquareMultiply a = gfInv a

/-! ### Unit AFF -/

/-- R100: every output bit of the affine map is the XOR of the five input bits and the bit of the constant that the rule
names. -/
def Obligations.AffineMapBitByBit : Prop :=
  ∀ (x : Byte) (i : Nat), i < 8 →
    (affineMap x).getLsbD i =
      (x.getLsbD i ^^ x.getLsbD ((i + 4) % 8) ^^ x.getLsbD ((i + 5) % 8) ^^ x.getLsbD ((i + 6) % 8) ^^
        x.getLsbD ((i + 7) % 8) ^^ (0x63#8 : Byte).getLsbD i)

/-- R101: AFFINE a. Its word, its response affine(a) in every state, nothing written; Illegal for every nonzero b; the
corner cases, 0x05 being the one input sent to zero, and the example. -/
def Obligations.AffineAnswersTheMapAndWritesNothing : Prop :=
  (∀ a : Byte, encode (.affine a) = BitVec.ofNat 20 (0x40000 + a.toNat * 256)) ∧
  (∀ (a : Byte) (s : State), AnswersOnly (.affine a) s (affineMap a)) ∧
  (∀ (a b : Byte) (s : State), b ≠ 0x00#8 →
    RaisesIllegal (BitVec.ofNat 20 (0x40000 + a.toNat * 256 + b.toNat)) s) ∧
  affineMap 0x00#8 = 0x63#8 ∧ affineMap 0xFF#8 = 0x9C#8 ∧ affineMap 0x01#8 = 0x7C#8 ∧
  (∀ a : Byte, affineMap a = 0x00#8 ↔ a = 0x05#8) ∧
  (∀ s : State, ∃ t, perform 0x4CA00#20 s = .next t ∧ t.rsp = some 0x0ED#12)

/-- R102: the row-mask form, the rotation form and linearity up to the constant, for every input; and the map is a
bijection. -/
def Obligations.FormsOfTheAffineMapAgree : Prop :=
  (∀ x : Byte, affineByRows x = affineMap x) ∧ (∀ x : Byte, affineByRotations x = affineMap x) ∧
  (∀ x : Byte, affineMap x = affineC x 0x00#8 ^^^ 0x63#8) ∧
  (∀ x y : Byte, affineMap x ^^^ affineMap y = affineC (x ^^^ y) 0x00#8) ∧
  Function.Bijective affineMap

/-- The variant with affine constant 0x00 (42_affine.md R103): its table is still a permutation and misses the two
spot-check values, and the hardware's map is the variant's with 0x63. -/
def Obligations.TheVariantTableIsAPermutationWithoutTheSpotValues : Prop :=
  (∀ x : Byte, affineMap x = affineC x 0x63#8) ∧
  affineC 0x00#8 0x00#8 = 0x00#8 ∧ affineC 0x01#8 0x00#8 = 0x1F#8 ∧
  Function.Bijective (variantEntry 0x00#8) ∧
  variantEntry 0x00#8 0x00#8 = 0x00#8 ∧ variantEntry 0x00#8 0x01#8 = 0x1F#8 ∧
  (∀ i : Byte, variantEntry 0x00#8 i = sboxEntry i ^^^ 0x63#8)

/-! ### Unit GEN and the table -/

/-- R111: GEN. Its word; in every state it answers 0x000, every entry becomes affine(gf_inv(i)), so TV = 1, SV becomes 0, and
SCORE, MAXBIAS, ES, FE and the host's actions are unchanged; its other words are Illegal and write nothing; and the rule's
example from the reset state. -/
def Obligations.GenWritesTheWholeTableAndClearsSv : Prop :=
  encode .gen = 0x50000#20 ∧
  (∀ s : State, ∃ t, exec .gen s = .next t ∧ t.rsp = some 0x000#12 ∧
    (∀ i : Byte, t.memRead i = some (affineMap (gfInv i))) ∧ t.tv = true ∧ t.sv = false ∧
    t.score = s.score ∧ t.maxBias = s.maxBias ∧ t.es = s.es ∧ t.fe = s.fe ∧ t.input = s.input) ∧
  (∀ (a b : Byte) (s : State), (a ≠ 0x00#8 ∨ b ≠ 0x00#8) →
    RaisesIllegal (BitVec.ofNat 20 (0x50000 + a.toNat * 256 + b.toNat)) s) ∧
  (∀ s t : State, InResetState s → exec .gen s = .next t →
    AnswersOnly .rdst t 0x01#8 ∧ AnswersOnly (.rdsb 0x53#8) t 0xED#8)

/-- From 43_sbox_generator.md R112: the generated table is a permutation, has the three entries the rule names, and is the table
listed in 95_test_vectors.md section 5.2 entry by entry. That the listed table is the published AES table is not claimed (log
entry 14). -/
def Obligations.TheGeneratedTableIsTheListedPermutation : Prop :=
  Function.Bijective sboxEntry ∧
  sboxEntry 0x00#8 = 0x63#8 ∧ sboxEntry 0x01#8 = 0x7C#8 ∧ sboxEntry 0x53#8 = 0xED#8 ∧
  listedSbox.length = 256 ∧ (∀ i : Byte, listedSbox[i.toNat]? = some (sboxEntry i).toNat)

/-- R115: the table after GEN does not depend on the state before it, and GEN after GEN leaves the same table. For a table
memory in canonical form (every reachable one) the memories are equal as data. -/
def Obligations.GenIsIdempotentAndForgetsTheOldTable : Prop :=
  (∀ s s' t t' : State, exec .gen s = .next t → exec .gen s' = .next t' →
    ∀ i : Byte, t.memRead i = t'.memRead i) ∧
  (∀ s s' t t' : State, Memory.wf s.sbox → Memory.wf s'.sbox → exec .gen s = .next t →
    exec .gen s' = .next t' → t.sbox = t'.sbox) ∧
  (∀ s t u : State, exec .gen s = .next t → exec .gen t = .next u →
    (∀ i : Byte, u.memRead i = t.memRead i) ∧ (Memory.wf s.sbox → u.sbox = t.sbox))

/-- R113: RDSB i. Its word; a written entry is answered with its byte, whatever TV is, and nothing is written; an unwritten one
raises NotReady; after reset every RDSB does; a nonzero b is Illegal; and the rule's corner case and examples. -/
def Obligations.RdsbAnswersAWrittenEntryAndOnlyThat : Prop :=
  (∀ i : Byte, encode (.rdsb i) = BitVec.ofNat 20 (0x60000 + i.toNat * 256)) ∧
  (∀ (i v : Byte) (s : State), s.memRead i = some v → AnswersOnly (.rdsb i) s v) ∧
  (∀ (i : Byte) (s : State), s.written i = true → ∃ v, s.memRead i = some v ∧ AnswersOnly (.rdsb i) s v) ∧
  (∀ (i : Byte) (s : State), s.written i = false →
    ∃ t, exec (.rdsb i) s = .next t ∧ ErrorEffect 0x2#4 s t ∧ t.rsp = some 0x200#12) ∧
  (∀ (i : Byte) (s : State), InResetState s → ∃ t, exec (.rdsb i) s = .next t ∧ t.rsp = some 0x200#12) ∧
  (∀ (i b : Byte) (s : State), b ≠ 0x00#8 →
    RaisesIllegal (BitVec.ofNat 20 (0x60000 + i.toNat * 256 + b.toNat)) s) ∧
  (∀ s t : State, InResetState s → exec (.wrsb 0x10#8 0xAB#8) s = .next t →
    AnswersOnly (.rdsb 0x10#8) t 0xAB#8 ∧ ∃ u, exec (.rdsb 0x11#8) t = .next u ∧ u.rsp = some 0x200#12) ∧
  (∀ s t : State, exec .gen s = .next t →
    AnswersOnly (.rdsb 0x00#8) t 0x63#8 ∧ AnswersOnly (.rdsb 0x01#8) t 0x7C#8)

/-- R114: WRSB i, v. Its word; in every state it answers 0x000, entry i reads v and is written, every other entry and written
bit is unchanged, SV becomes 0 even if the entry held v before, and the other registers and flags are unchanged; RDSB i then
answers v; TV stays 1, and becomes 1 with the last index written, without GEN. -/
def Obligations.WrsbWritesOneEntryAndClearsSv : Prop :=
  (∀ i v : Byte, encode (.wrsb i v) = BitVec.ofNat 20 (0x70000 + i.toNat * 256 + v.toNat)) ∧
  (∀ (i v : Byte) (s : State), ∃ t, exec (.wrsb i v) s = .next t ∧ t.rsp = some 0x000#12 ∧
    t.memRead i = some v ∧ t.written i = true ∧
    (∀ j : Byte, j ≠ i → t.memRead j = s.memRead j ∧ t.written j = s.written j) ∧
    t.sv = false ∧ t.score = s.score ∧ t.maxBias = s.maxBias ∧ t.es = s.es ∧ t.fe = s.fe ∧
    t.input = s.input ∧ AnswersOnly (.rdsb i) t v) ∧
  (∀ (i v : Byte) (s t : State), s.tv = true → exec (.wrsb i v) s = .next t → t.tv = true) ∧
  (∀ (i v : Byte) (s t : State), (∀ j : Byte, j ≠ i → s.written j = true) → exec (.wrsb i v) s = .next t → t.tv = true)

/-! ### Unit NLA -/

/-- R126 and R127: the match count is the number of inputs on which the approximation holds, at most 256, and the bias is
its distance from 128, at most 128. -/
def Obligations.MatchCountAndBiasAreTheCardinalAndItsDistanceFrom128 : Prop :=
  ∀ (t : Table) (u v : Byte),
    matchCount t u v =
      (Finset.univ.filter fun x : Fin 256 =>
        parity8 (u &&& BitVec.ofFin x) = parity8 (v &&& t.entry (BitVec.ofFin x))).card ∧
    matchCount t u v ≤ 256 ∧
    (matchCount t u v < 128 → bias t u v = 128 - matchCount t u v) ∧
    (128 ≤ matchCount t u v → bias t u v = matchCount t u v - 128) ∧ bias t u v ≤ 128

/-- R128: the maximum is reached by some nonzero mask pair and exceeded by none, it is at most 128, and the score is 128
minus it, so score and maximum sum to 128. -/
def Obligations.TheSearchFindsTheMaximumOverNonzeroMasks : Prop :=
  ∀ t : Table,
    (∀ u v : Byte, u ≠ 0x00#8 → v ≠ 0x00#8 → bias t u v ≤ maxBiasOf t) ∧
    (∃ u v : Byte, u ≠ 0x00#8 ∧ v ≠ 0x00#8 ∧ bias t u v = maxBiasOf t) ∧
    maxBiasOf t ≤ 128 ∧ scoreOf t = 128 - maxBiasOf t ∧ scoreOf t + maxBiasOf t = 128

/-- R133, with the lanes of 20_memory.md R48: any order that visits exactly the nonzero pairs finds the same maximum, and so
does any splitting of them into lanes whose maxima are combined by max. -/
def Obligations.TheSearchDoesNotDependOnOrderOrLanes : Prop :=
  (∀ (t : Table) (pairs : List (Byte × Byte)), pairs.Nodup →
    (∀ p : Byte × Byte, p ∈ pairs ↔ p.1 ≠ 0x00#8 ∧ p.2 ≠ 0x00#8) →
    maxBiasInOrder t pairs = maxBiasOf t) ∧
  (∀ (t : Table) (lanes : List (List (Byte × Byte))), lanes.flatten.Nodup →
    (∀ p : Byte × Byte, p ∈ lanes.flatten ↔ p.1 ≠ 0x00#8 ∧ p.2 ≠ 0x00#8) →
    (lanes.map (maxBiasInOrder t)).foldl max 0 = maxBiasOf t)

/-- Corner cases of 44_nonlinearity.md R129: a constant table scores 128 with maximum bias 0, the identity table scores 0
with maximum bias 128. -/
def Obligations.ConstantAndIdentityTablesScore128And0 : Prop :=
  (∀ (c : Byte) (t : Table), (∀ x : Byte, t.entry x = c) → scoreOf t = 128 ∧ maxBiasOf t = 0) ∧
  (∀ t : Table, (∀ x : Byte, t.entry x = x) → scoreOf t = 0 ∧ maxBiasOf t = 128)

/-- NLA (44_nonlinearity.md section 2): with every entry written it answers the score of the current table, stores it and the
maximum bias, sets SV, and changes nothing else; with TV = 0 it raises NotReady; its other words are Illegal. -/
def Obligations.NlaScoresTheCurrentTable : Prop :=
  encode .nla = 0x80000#20 ∧
  (∀ s : State, s.tv = true → ∃ (t : State) (tab : Table), exec .nla s = .next t ∧
    (∀ i : Byte, s.memRead i = some (tab.entry i)) ∧
    t.score.toNat = scoreOf tab ∧ t.maxBias.toNat = maxBiasOf tab ∧ t.sv = true ∧
    t.rsp = some (rspWord 0x0#4 t.score) ∧ (∀ i : Byte, t.memRead i = s.memRead i) ∧
    t.es = s.es ∧ t.fe = s.fe ∧ t.input = s.input) ∧
  (∀ s : State, s.tv = false → ∃ t, exec .nla s = .next t ∧ ErrorEffect 0x2#4 s t ∧ t.rsp = some 0x200#12) ∧
  (∀ (a b : Byte) (s : State), (a ≠ 0x00#8 ∨ b ≠ 0x00#8) →
    RaisesIllegal (BitVec.ofNat 20 (0x80000 + a.toNat * 256 + b.toNat)) s)

/-- 44_nonlinearity.md R134: for the generated table the score is exactly 112 and the maximum bias 16; GEN and then NLA, from
any state, answer 0x070 and leave SCORE = 112, MAXBIAS = 16, SV = 1. -/
def Obligations.TheGeneratedTableScores112 : Prop :=
  scoreOf sboxGen = 112 ∧ maxBiasOf sboxGen = 16 ∧
  ∀ s : State, ∃ t u, exec .gen s = .next t ∧ exec .nla t = .next u ∧ u.rsp = some 0x070#12 ∧
    u.score = 112#8 ∧ u.maxBias = 16#8 ∧ u.sv = true

/-- RDSC and RDMB (44_nonlinearity.md section 2): with SV = 1 they answer SCORE and MAXBIAS and write nothing; with SV = 0
they raise NotReady; every other word of theirs is Illegal. -/
def Obligations.RdscAndRdmbAnswerTheirRegisterWhileValid : Prop :=
  encode .rdsc = 0x90000#20 ∧ encode .rdmb = 0xA0000#20 ∧
  (∀ s : State, s.sv = true → AnswersOnly .rdsc s s.score) ∧
  (∀ s : State, s.sv = true → AnswersOnly .rdmb s s.maxBias) ∧
  (∀ s : State, s.sv = false →
    ∃ t, exec .rdsc s = .next t ∧ ErrorEffect 0x2#4 s t ∧ t.rsp = some 0x200#12) ∧
  (∀ s : State, s.sv = false →
    ∃ t, exec .rdmb s = .next t ∧ ErrorEffect 0x2#4 s t ∧ t.rsp = some 0x200#12) ∧
  (∀ (a b : Byte) (s : State), (a ≠ 0x00#8 ∨ b ≠ 0x00#8) →
    RaisesIllegal (BitVec.ofNat 20 (0x90000 + a.toNat * 256 + b.toNat)) s ∧
    RaisesIllegal (BitVec.ofNat 20 (0xA0000 + a.toNat * 256 + b.toNat)) s)

/-- From 44_nonlinearity.md R131 and 10_state.md R32: in a state of the invariant with SV = 1 the data of RDSC and of RDMB
sum to 128. -/
def Obligations.ScoreAndMaximumBiasReadOutSumTo128 : Prop :=
  ∀ s : State, Invariant s → s.sv = true → ∃ t u : State, ∃ p q : RspWord,
    exec .rdsc s = .next t ∧ t.rsp = some p ∧ exec .rdmb s = .next u ∧ u.rsp = some q ∧
    rspEcode p = 0x0#4 ∧ rspEcode q = 0x0#4 ∧ (rspData p).toNat + (rspData q).toNat = 128

/-! ### System commands, status and reset -/

/-- From R25: the status byte is `{FE, 0, ES, SV, TV}` bit by bit, and in every state of the invariant (ES, FE) is one of
(0, 0x0), (1, 0x1), (1, 0x2) and SV = 1 only if TV = 1. -/
def Obligations.StatusByteLayoutAndItsPossibleValues : Prop :=
  (∀ s : State, s.statusByte.getLsbD 0 = s.tv ∧ s.statusByte.getLsbD 1 = s.sv ∧
    s.statusByte.getLsbD 2 = s.es ∧ s.statusByte.getLsbD 3 = false ∧
    s.statusByte.extractLsb' 4 4 = s.fe) ∧
  (∀ s : State, Invariant s →
    ((s.es = false ∧ s.fe = 0x0#4) ∨ (s.es = true ∧ s.fe = 0x1#4) ∨ (s.es = true ∧ s.fe = 0x2#4)) ∧
    (s.sv = true → s.tv = true))

/-- RDST (45_system.md R145): in every state it answers the status byte, which is the one before it and after it, and writes
nothing; its other words are Illegal. -/
def Obligations.RdstAnswersTheStatusByte : Prop :=
  encode .rdst = 0xB0000#20 ∧
  (∀ s : State, AnswersOnly .rdst s s.statusByte) ∧
  (∀ s t : State, exec .rdst s = .next t → t.statusByte = s.statusByte) ∧
  (∀ s : State, InResetState s → AnswersOnly .rdst s 0x00#8) ∧
  (∀ (a b : Byte) (s : State), (a ≠ 0x00#8 ∨ b ≠ 0x00#8) →
    RaisesIllegal (BitVec.ofNat 20 (0xB0000 + a.toNat * 256 + b.toNat)) s)

/-- SRST (45_system.md R146): in every state it answers 0x000 and takes the reset state, and leaves the host's actions; its
other words are Illegal and clear nothing. -/
def Obligations.SrstTakesTheResetState : Prop :=
  encode .srst = 0xF0000#20 ∧
  (∀ s : State, ∃ t, exec .srst s = .next t ∧ t.rsp = some 0x000#12 ∧ InResetState t ∧ t.input = s.input) ∧
  (∀ (a b : Byte) (s : State), (a ≠ 0x00#8 ∨ b ≠ 0x00#8) →
    RaisesIllegal (BitVec.ofNat 20 (0xF0000 + a.toNat * 256 + b.toNat)) s)

/-- R176: the state after reset, the state after hard reset and the state after SRST are all the reset
state, and in it the status byte is 0x00 and SBOX, SCORE and MAXBIAS are unreadable: RDSB, NLA, RDSC and RDMB raise
NotReady. -/
def Obligations.TheResetStateIsTheSameHoweverItIsReached : Prop :=
  InResetState State.reset ∧
  (∀ s : State, InResetState s.hardReset) ∧
  (∀ s t : State, exec .srst s = .next t → InResetState t) ∧
  (∀ s : State, InResetState s → s.statusByte = 0x00#8 ∧
    (∀ i ∈ [Instr.nla, .rdsc, .rdmb], ∃ t, exec i s = .next t ∧ ErrorEffect 0x2#4 s t) ∧
    (∀ j : Byte, ∃ t, exec (.rdsb j) s = .next t ∧ ErrorEffect 0x2#4 s t))

/-! ### Errors -/

/-- R156 and R157: which commands raise which error, exactly: Illegal if and only if the word is illegal, whatever the state,
and NotReady if and only if the word is legal and what the command reads has not been written; no other error; what an error
records and answers; and 0x60001 in the reset state is Illegal, not NotReady. -/
def Obligations.EachErrorIsRaisedExactlyByItsCause : Prop :=
  ∀ (w : CmdWord) (s : State), ∃ t r, perform w s = .next t ∧ t.rsp = some r ∧
    (rspEcode r = 0x1#4 ↔ IllegalWord w) ∧
    (rspEcode r = 0x2#4 ↔ ∃ i, decode w = .ok i ∧ NotReadyFor i s) ∧
    (rspEcode r = 0x0#4 ↔ ∃ i, decode w = .ok i ∧ ¬ NotReadyFor i s) ∧
    (rspEcode r ≠ 0x0#4 → rspData r = 0x00#8 ∧ t.es = true ∧
      (s.es = false → t.fe = rspEcode r) ∧ (s.es = true → t.fe = s.fe)) ∧
    (w = 0x60001#20 → InResetState s → rspEcode r = 0x1#4)

/-- R158: a command that ends with an error answers `{code, 0x00}`, sets ES, writes FE only if ES was 0, and leaves SBOX, SBV,
SCORE, MAXBIAS and SV exactly as before, as lists and as values. -/
def Obligations.AnErrorChangesOnlyTheTwoFlags : Prop :=
  ∀ (w : CmdWord) (s t : State) (r : RspWord), perform w s = .next t → t.rsp = some r →
    rspEcode r ≠ 0x0#4 →
      r = rspWord (rspEcode r) 0x00#8 ∧ t.es = true ∧ t.fe = (if s.es then s.fe else rspEcode r) ∧
      t.sbox = s.sbox ∧ t.score = s.score ∧ t.maxBias = s.maxBias ∧ t.sv = s.sv ∧ t.input = s.input

/-- R24: ES and FE after one command: an error sets ES and records its code in FE only while ES = 0; SRST clears both; any
other command leaves both. Hard reset clears both, they are 0 after reset, and ES = 0 exactly when FE = 0x0 in every state
of the invariant. -/
def Obligations.TheStickyErrorKeepsTheFirstCode : Prop :=
  State.reset.es = false ∧ State.reset.fe = 0x0#4 ∧
  (∀ s : State, s.hardReset.es = false ∧ s.hardReset.fe = 0x0#4) ∧
  (∀ (w : CmdWord) (s t : State) (r : RspWord), perform w s = .next t → t.rsp = some r →
    (rspEcode r ≠ 0x0#4 → t.es = true ∧ t.fe = (if s.es then s.fe else rspEcode r)) ∧
    (rspEcode r = 0x0#4 → decode w ≠ .ok .srst → t.es = s.es ∧ t.fe = s.fe) ∧
    (decode w = .ok .srst → t.es = false ∧ t.fe = 0x0#4)) ∧
  (∀ s : State, Invariant s → (s.es = false ↔ s.fe = 0x0#4))

/-! ### Whole-machine rules -/

/-- R22: TV is the AND of the 256 written bits; an entry whose bit is 0 holds no value, RDSB does not return it and NLA does not
compute with it; and one step sets a written bit only by GEN or by WRSB of that index and clears it only by hard reset or
SRST. -/
def Obligations.WrittenBitsAreSetByWritesAndClearedByResetOnly : Prop :=
  (∀ s : State, s.tv = true ↔ ∀ i : Byte, s.written i = true) ∧
  (∀ (s : State) (i : Byte), s.written i = false ↔ s.memRead i = none) ∧
  (∀ (s : State) (i : Byte), s.written i = false → ∀ j ∈ [Instr.rdsb i, .nla],
    ∃ t, exec j s = .next t ∧ t.rsp = some 0x200#12) ∧
  (∀ (s t : State) (i : Byte), step s = .next t →
    (t.written i = true ↔ ¬ nextActionResets s ∧
      (s.written i = true ∨ ∃ w rest, s.input = .command w :: rest ∧
        (decode w = .ok .gen ∨ ∃ v, decode w = .ok (.wrsb i v)))))

/-- From the columns "written by" of 10_state.md R20 and from R23, R24 and R26, for the commands: only GEN, WRSB and SRST change
the table; only an NLA on a complete table changes SCORE and MAXBIAS, but for SRST, which R31 lets leave them unspecified and
in which the model puts free values there (log entry 4); only such an NLA sets SV, only GEN, WRSB and SRST clear it, and every
other command, an NLA that is not ready among them, keeps it; ES and FE change only by SRST and by a command that is not
ready. -/
def Obligations.OnlyTheNamedCommandsWriteEachRegister : Prop :=
  ∀ (i : Instr) (s t : State), exec i s = .next t →
    ((i ≠ .gen ∧ (∀ j v, i ≠ .wrsb j v) ∧ i ≠ .srst) → ∀ j : Byte, t.memRead j = s.memRead j) ∧
    (((i ≠ .nla ∨ s.tv = false) ∧ i ≠ .srst) → t.score = s.score ∧ t.maxBias = s.maxBias) ∧
    ((i = .nla ∧ s.tv = true) → t.sv = true) ∧
    ((i = .gen ∨ (∃ j v, i = .wrsb j v) ∨ i = .srst) → t.sv = false) ∧
    (((i ≠ .nla ∨ s.tv = false) ∧ i ≠ .gen ∧ (∀ j v, i ≠ .wrsb j v) ∧ i ≠ .srst) → t.sv = s.sv) ∧
    ((i ≠ .srst ∧ ¬ NotReadyFor i s) → t.es = s.es ∧ t.fe = s.fe)

/-- The invariants of R32 and the canonical form of the table memory hold after reset. -/
def Obligations.TheInvariantHoldsAtReset : Prop := Invariant State.reset

/-- From R32: every step keeps the invariants (a) to (c), from every state that meets them and not only from reachable ones, and
(d) no written bit is lost but by hard reset or SRST. -/
def Obligations.EveryStepKeepsTheInvariant : Prop :=
  ∀ s t : State, Invariant s → step s = .next t →
    Invariant t ∧ (¬ nextActionResets s → ∀ i : Byte, s.written i = true → t.written i = true)

/-- From 10_state.md R31 ("it is never observable"): two states that differ only in what R31 leaves unspecified get the same
response to whatever the host does next, and still differ only so afterwards. It does not rest on the value of any free
value or of any reset value the model chose (log entries 3 and 4). -/
def Obligations.UnspecifiedContentsAreNeverObservable : Prop :=
  ∀ s s' : State, Indistinguishable s s' →
    ∃ t t', step s = .next t ∧ step s' = .next t' ∧ t.rsp = t'.rsp ∧ Indistinguishable t t'

/-! ### The port -/

/-- From 30_encoding.md R73: a command accepted at an edge is answered after its wait, if `rst` stays 0, whatever else the
host drives meanwhile: the port then stands in the response cycle over exactly the state that performing the word makes, and
gives that response, and at every edge before that `cmd_ready` and `rsp_valid` are 0 and the core's state is untouched. The
wait is the model's free value, and that the state is untouched until the one edge at which the response begins is its choice
(log entry 7). -/
def Obligations.AnAcceptedCommandIsAnsweredByItsTransaction : Prop :=
  ∀ (p : Port) (i : PortIn) (ins : List PortIn), accepts i p = true → (∀ j ∈ ins, j.rst = false) →
    ins.length = Config.latency p.draws →
    (∃ t q, perform i.cmd p.core = .next t ∧ clockEdges (i :: ins) p = .next q ∧
      q.core = t ∧ q.phase = .responding ∧ ∀ j : PortIn, j.rst = false → rspOut j q = t.rsp) ∧
    (∀ k < ins.length, ∃ q, clockEdges (i :: ins.take k) p = .next q ∧ q.core = p.core ∧
      ∀ j : PortIn, cmdReady j q = false ∧ rspValid j q = false)

/-- From 30_encoding.md R73 and 60_exceptions.md R171: `rsp_valid` is 1 for one cycle only, a word is accepted only while
`cmd_ready` = 1, `cmd_ready` returns after the free wait, and a ready port to which nothing is presented keeps all of its
state. The wait is the model's free value, and that `rst` gates the outputs in its own cycle its choice (log entry 7). -/
def Obligations.TheResponseLastsOneCycleAndThePortBecomesReady : Prop :=
  (∀ (p : Port) (i : PortIn), rspValid i p = true →
    ∃ q, clockEdge i p = .next q ∧ q.core = p.core ∧ ∀ j : PortIn, rspValid j q = false) ∧
  (∀ (p : Port) (ins : List PortIn), p.phase = .responding → (∀ j ∈ ins, j.rst = false) →
    ins.length = Config.readyDelay p.draws + 1 →
    ∃ q, clockEdges ins p = .next q ∧ q.core = p.core ∧ q.phase = .ready) ∧
  (∀ (p : Port) (i : PortIn), accepts i p = true ↔ i.cmdValid = true ∧ cmdReady i p = true ∧ i.rst = false) ∧
  (∀ (p : Port) (i : PortIn), p.phase = .ready → i.rst = false → i.cmdValid = false →
    clockEdge i p = .next p)

/-- From R175 and R73: `rst` at an edge takes the reset state whatever the port was doing; a command in progress is abandoned and gives no
response; while `rst` is 1 `cmd_ready` and `rsp_valid` are 0 and the state stays the reset state; after `rst` returns to 0
`cmd_ready` is 1 and a command is accepted. That `rst` gates the outputs in its own cycle and wins at the edge, and that the
accepted command is then busy for a free wait or responding, are the model's choices (log entry 7), and so is `rsp` = none for
no response (log entry 11). -/
def Obligations.HardResetAbandonsACommandInProgress : Prop :=
  (∀ (p : Port) (i : PortIn), i.rst = true → cmdReady i p = false ∧ rspValid i p = false ∧
    ∃ q, clockEdge i p = .next q ∧ InResetState q.core ∧ q.core.rsp = none ∧ q.phase = .ready ∧
      ∀ j : PortIn, rspValid j q = false ∧ (j.rst = false → cmdReady j q = true)) ∧
  (∀ (p : Port) (ins : List PortIn), ins ≠ [] → (∀ j ∈ ins, j.rst = true) →
    ∃ q, clockEdges ins p = .next q ∧ InResetState q.core ∧ q.phase = .ready) ∧
  (∀ (p : Port) (i j : PortIn) (q : Port), i.rst = true → clockEdge i p = .next q → j.rst = false →
    j.cmdValid = true → accepts j q = true ∧ ∃ q', clockEdge j q = .next q' ∧
      ((∃ n, q'.phase = .busy j.cmd n) ∨ (q'.phase = .responding ∧ perform j.cmd q.core = .next q'.core)))

/-! ### Assembler -/

/-- From R70 and R69: RUN assembles to GEN then NLA, GFSQR a to GFMUL a, a, `.word w` to w as it stands, and
no other line assembles to an illegal word. -/
def Obligations.TheAssemblerEmitsLegalWordsButForItsDirective : Prop :=
  assemble .run = some [encode .gen, encode .nla] ∧
  (∀ a : Byte, assemble (.gfsqr a.toNat) = some [encode (.gfmul a a)]) ∧
  (∀ w : CmdWord, assemble (.word w.toNat) = some [w]) ∧
  (∀ (l : AsmLine) (ws : List CmdWord) (w : CmdWord), assemble l = some ws → w ∈ ws →
    (∀ n, l ≠ .word n) → ∃ i, decode w = .ok i)

/-- From 30_encoding.md R69: the text of every command, with every operand at every value, is read as a line that assembles to
the command's word. The two-digit form of a number in that text is the model's choice (log entry 10). -/
def Obligations.EveryCommandsTextAssemblesToItsWord : Prop :=
  ∀ i : Instr, ∃ l, readLine (instrText i) = .line l ∧ assemble l = some [encode i]
end

