-- ==== Sys2Proof/Laws/Decode.lean ====
section
/-! SUPPORT. The fields of a command word, put together and taken apart. -/

namespace Sys2Proof

@[simp] theorem fieldsOf_toWord (c : Cmd20) : fieldsOf c.toWord = c := by
  obtain ⟨op, a, b⟩ := c
  simp only [fieldsOf, Cmd20.toWord, Cmd20.mk.injEq]
  refine ⟨?_, ?_, ?_⟩ <;>
    · apply BitVec.eq_of_getLsbD_eq
      intro i hi
      simp only [BitVec.getLsbD_extractLsb', BitVec.getLsbD_append]
      interval_cases i <;> simp

@[simp] theorem toWord_fieldsOf (w : CmdWord) : (fieldsOf w).toWord = w := by
  apply BitVec.eq_of_getLsbD_eq
  intro i hi
  simp only [fieldsOf, Cmd20.toWord, BitVec.getLsbD_extractLsb', BitVec.getLsbD_append]
  interval_cases i <;> simp

/-- Decoding a word made of fields looks at the fields alone. -/
theorem decode_toWord (c : Cmd20) : decode c.toWord = decodeFields c := by
  simp [decode]

end Sys2Proof
end

