-- ==== Sys2Proof/Laws/State.lean ====
section
/-! SUPPORT. Every field of State after every shared update, true by definition. -/

namespace Sys2Proof.Machine

variable (s : State)

@[simp] theorem respond_sbox (d : Byte) : (s.respond d).sbox = s.sbox := rfl
@[simp] theorem respond_score (d : Byte) : (s.respond d).score = s.score := rfl
@[simp] theorem respond_maxBias (d : Byte) : (s.respond d).maxBias = s.maxBias := rfl
@[simp] theorem respond_sv (d : Byte) : (s.respond d).sv = s.sv := rfl
@[simp] theorem respond_es (d : Byte) : (s.respond d).es = s.es := rfl
@[simp] theorem respond_fe (d : Byte) : (s.respond d).fe = s.fe := rfl
@[simp] theorem respond_rsp (d : Byte) : (s.respond d).rsp = some (rspWord 0x0#4 d) := rfl
@[simp] theorem respond_input (d : Byte) : (s.respond d).input = s.input := rfl
@[simp] theorem respond_freeIdx (d : Byte) : (s.respond d).freeIdx = s.freeIdx := rfl

@[simp] theorem raise_sbox (e : CmdError) : (s.raise e).sbox = s.sbox := rfl
@[simp] theorem raise_score (e : CmdError) : (s.raise e).score = s.score := rfl
@[simp] theorem raise_maxBias (e : CmdError) : (s.raise e).maxBias = s.maxBias := rfl
@[simp] theorem raise_sv (e : CmdError) : (s.raise e).sv = s.sv := rfl
@[simp] theorem raise_es (e : CmdError) : (s.raise e).es = true := rfl
@[simp] theorem raise_fe (e : CmdError) : (s.raise e).fe = if s.es then s.fe else e.code := rfl
@[simp] theorem raise_rsp (e : CmdError) : (s.raise e).rsp = some (rspWord e.code 0x00#8) := rfl
@[simp] theorem raise_input (e : CmdError) : (s.raise e).input = s.input := rfl
@[simp] theorem raise_freeIdx (e : CmdError) : (s.raise e).freeIdx = s.freeIdx := rfl

@[simp] theorem memWrite_sbox (i v : Byte) : (s.memWrite i v).sbox = Memory.write s.sbox i.toNat v := rfl
@[simp] theorem memWrite_score (i v : Byte) : (s.memWrite i v).score = s.score := rfl
@[simp] theorem memWrite_maxBias (i v : Byte) : (s.memWrite i v).maxBias = s.maxBias := rfl
@[simp] theorem memWrite_sv (i v : Byte) : (s.memWrite i v).sv = s.sv := rfl
@[simp] theorem memWrite_es (i v : Byte) : (s.memWrite i v).es = s.es := rfl
@[simp] theorem memWrite_fe (i v : Byte) : (s.memWrite i v).fe = s.fe := rfl
@[simp] theorem memWrite_rsp (i v : Byte) : (s.memWrite i v).rsp = s.rsp := rfl
@[simp] theorem memWrite_input (i v : Byte) : (s.memWrite i v).input = s.input := rfl
@[simp] theorem memWrite_freeIdx (i v : Byte) : (s.memWrite i v).freeIdx = s.freeIdx := rfl

@[simp] theorem clearSv_sbox : (s.clearSv).sbox = s.sbox := rfl
@[simp] theorem clearSv_score : (s.clearSv).score = s.score := rfl
@[simp] theorem clearSv_maxBias : (s.clearSv).maxBias = s.maxBias := rfl
@[simp] theorem clearSv_sv : (s.clearSv).sv = false := rfl
@[simp] theorem clearSv_es : (s.clearSv).es = s.es := rfl
@[simp] theorem clearSv_fe : (s.clearSv).fe = s.fe := rfl
@[simp] theorem clearSv_rsp : (s.clearSv).rsp = s.rsp := rfl
@[simp] theorem clearSv_input : (s.clearSv).input = s.input := rfl
@[simp] theorem clearSv_freeIdx : (s.clearSv).freeIdx = s.freeIdx := rfl

@[simp] theorem setScore_sbox (c m : Byte) : (s.setScore c m).sbox = s.sbox := rfl
@[simp] theorem setScore_score (c m : Byte) : (s.setScore c m).score = c := rfl
@[simp] theorem setScore_maxBias (c m : Byte) : (s.setScore c m).maxBias = m := rfl
@[simp] theorem setScore_sv (c m : Byte) : (s.setScore c m).sv = true := rfl
@[simp] theorem setScore_es (c m : Byte) : (s.setScore c m).es = s.es := rfl
@[simp] theorem setScore_fe (c m : Byte) : (s.setScore c m).fe = s.fe := rfl
@[simp] theorem setScore_rsp (c m : Byte) : (s.setScore c m).rsp = s.rsp := rfl
@[simp] theorem setScore_input (c m : Byte) : (s.setScore c m).input = s.input := rfl
@[simp] theorem setScore_freeIdx (c m : Byte) : (s.setScore c m).freeIdx = s.freeIdx := rfl

@[simp] theorem enterReset_sbox : (s.enterReset).sbox = [] := rfl
@[simp] theorem enterReset_score : (s.enterReset).score = Config.unspecifiedByte s.freeIdx := rfl
@[simp] theorem enterReset_maxBias : (s.enterReset).maxBias = Config.unspecifiedByte (s.freeIdx + 1) := rfl
@[simp] theorem enterReset_sv : (s.enterReset).sv = false := rfl
@[simp] theorem enterReset_es : (s.enterReset).es = false := rfl
@[simp] theorem enterReset_fe : (s.enterReset).fe = 0x0#4 := rfl
@[simp] theorem enterReset_rsp : (s.enterReset).rsp = s.rsp := rfl
@[simp] theorem enterReset_input : (s.enterReset).input = s.input := rfl
@[simp] theorem enterReset_freeIdx : (s.enterReset).freeIdx = s.freeIdx + 2 := rfl

@[simp] theorem hardReset_sbox : (s.hardReset).sbox = [] := rfl
@[simp] theorem hardReset_score : (s.hardReset).score = Config.unspecifiedByte s.freeIdx := rfl
@[simp] theorem hardReset_maxBias : (s.hardReset).maxBias = Config.unspecifiedByte (s.freeIdx + 1) := rfl
@[simp] theorem hardReset_sv : (s.hardReset).sv = false := rfl
@[simp] theorem hardReset_es : (s.hardReset).es = false := rfl
@[simp] theorem hardReset_fe : (s.hardReset).fe = 0x0#4 := rfl
@[simp] theorem hardReset_rsp : (s.hardReset).rsp = none := rfl
@[simp] theorem hardReset_input : (s.hardReset).input = s.input := rfl
@[simp] theorem hardReset_freeIdx : (s.hardReset).freeIdx = s.freeIdx + 2 := rfl

@[simp] theorem idle_sbox : (s.idle).sbox = s.sbox := rfl
@[simp] theorem idle_score : (s.idle).score = s.score := rfl
@[simp] theorem idle_maxBias : (s.idle).maxBias = s.maxBias := rfl
@[simp] theorem idle_sv : (s.idle).sv = s.sv := rfl
@[simp] theorem idle_es : (s.idle).es = s.es := rfl
@[simp] theorem idle_fe : (s.idle).fe = s.fe := rfl
@[simp] theorem idle_rsp : (s.idle).rsp = none := rfl
@[simp] theorem idle_input : (s.idle).input = s.input := rfl
@[simp] theorem idle_freeIdx : (s.idle).freeIdx = s.freeIdx := rfl

@[simp] theorem popInput_sbox : (s.popInput).sbox = s.sbox := rfl
@[simp] theorem popInput_score : (s.popInput).score = s.score := rfl
@[simp] theorem popInput_maxBias : (s.popInput).maxBias = s.maxBias := rfl
@[simp] theorem popInput_sv : (s.popInput).sv = s.sv := rfl
@[simp] theorem popInput_es : (s.popInput).es = s.es := rfl
@[simp] theorem popInput_fe : (s.popInput).fe = s.fe := rfl
@[simp] theorem popInput_rsp : (s.popInput).rsp = s.rsp := rfl
@[simp] theorem popInput_input : (s.popInput).input = s.input.tail := rfl
@[simp] theorem popInput_freeIdx : (s.popInput).freeIdx = s.freeIdx := rfl

@[simp] theorem presentWord_sbox (w : CmdWord) : (s.presentWord w).sbox = s.sbox := rfl
@[simp] theorem presentWord_score (w : CmdWord) : (s.presentWord w).score = s.score := rfl
@[simp] theorem presentWord_maxBias (w : CmdWord) : (s.presentWord w).maxBias = s.maxBias := rfl
@[simp] theorem presentWord_sv (w : CmdWord) : (s.presentWord w).sv = s.sv := rfl
@[simp] theorem presentWord_es (w : CmdWord) : (s.presentWord w).es = s.es := rfl
@[simp] theorem presentWord_fe (w : CmdWord) : (s.presentWord w).fe = s.fe := rfl
@[simp] theorem presentWord_rsp (w : CmdWord) : (s.presentWord w).rsp = s.rsp := rfl
@[simp] theorem presentWord_input (w : CmdWord) : (s.presentWord w).input = HostAction.command w :: s.input := rfl
@[simp] theorem presentWord_freeIdx (w : CmdWord) : (s.presentWord w).freeIdx = s.freeIdx := rfl

theorem genTable_sbox : s.genTable.sbox = Memory.genAll s.sbox := by
  rw [State.genTable]
@[simp] theorem genTable_score : s.genTable.score = s.score := rfl
@[simp] theorem genTable_maxBias : s.genTable.maxBias = s.maxBias := rfl
@[simp] theorem genTable_sv : s.genTable.sv = false := rfl
@[simp] theorem genTable_es : s.genTable.es = s.es := rfl
@[simp] theorem genTable_fe : s.genTable.fe = s.fe := rfl
@[simp] theorem genTable_rsp : s.genTable.rsp = s.rsp := rfl
@[simp] theorem genTable_input : s.genTable.input = s.input := rfl
@[simp] theorem genTable_freeIdx : s.genTable.freeIdx = s.freeIdx := rfl

end Sys2Proof.Machine
end

