-- ==== Sys2Proof/Laws/Memory.lean ====
section
/-! SUPPORT. The table memory: reading after writing, the canonical form, and the writes of GEN. -/

namespace Sys2Proof.Machine

theorem read_write_same (m : Memory) (i : Nat) (v : Byte) :
    Memory.read (Memory.write m i v) i = some v := by
  induction m with
  | nil => simp [Memory.write, Memory.read]
  | cons c m ih =>
    simp only [Memory.write]
    split
    · simp [Memory.read]
    · split
      · simp [Memory.read]
      · rename_i hlt hne
        simp only [Memory.read, ih]
        rw [if_neg (fun h => hne h.symm)]

theorem read_write_other (m : Memory) {i j : Nat} (v : Byte) (h : j ≠ i) :
    Memory.read (Memory.write m i v) j = Memory.read m j := by
  induction m with
  | nil => simp [Memory.write, Memory.read, Ne.symm h]
  | cons c m ih =>
    simp only [Memory.write]
    split
    · simp [Memory.read, Ne.symm h]
    · split
      · rename_i heq
        simp [Memory.read, Ne.symm h, ← heq]
      · simp only [Memory.read, ih]

/-- A cell of the written table is the written one or was there before. -/
theorem mem_write {m : Memory} {i : Nat} {v : Byte} {c : Host.Cell}
    (h : c ∈ Memory.write m i v) : c = (i, v) ∨ c ∈ m := by
  induction m with
  | nil => simpa [Memory.write] using h
  | cons d m ih =>
    simp only [Memory.write] at h
    split at h
    · simpa using h
    · split at h
      · rcases List.mem_cons.mp h with h | h
        · exact .inl h
        · exact .inr (List.mem_cons_of_mem _ h)
      · rcases List.mem_cons.mp h with h | h
        · exact .inr (h ▸ List.mem_cons_self)
        · exact (ih h).imp_right (List.mem_cons_of_mem _)

theorem write_pairwise (m : Memory) (i : Nat) (v : Byte)
    (h : m.Pairwise (fun c d => c.1 < d.1)) :
    (Memory.write m i v).Pairwise (fun c d => c.1 < d.1) := by
  induction m with
  | nil => simp [Memory.write]
  | cons d m ih =>
    obtain ⟨hd, hm⟩ := List.pairwise_cons.mp h
    simp only [Memory.write]
    split
    · rename_i hlt
      refine List.pairwise_cons.mpr ⟨?_, h⟩
      intro c hc
      rcases List.mem_cons.mp hc with rfl | hc
      · exact hlt
      · exact hlt.trans (hd c hc)
    · split
      · rename_i heq
        exact List.pairwise_cons.mpr ⟨fun c hc => heq ▸ hd c hc, hm⟩
      · refine List.pairwise_cons.mpr ⟨?_, ih hm⟩
        intro c hc
        rcases mem_write hc with rfl | hc
        · simp only
          omega
        · exact hd c hc

/-- Writing keeps the canonical form. -/
theorem write_wf {m : Memory} {i : Nat} (v : Byte) (hi : i < 256) (h : Memory.wf m) :
    Memory.wf (Memory.write m i v) := by
  refine ⟨write_pairwise m i v h.1, ?_⟩
  intro c hc
  rcases mem_write hc with rfl | hc
  · exact hi
  · exact h.2 c hc

theorem memWrite_wf (s : State) (i v : Byte) (h : Memory.wf s.sbox) :
    Memory.wf (s.memWrite i v).sbox :=
  write_wf v i.isLt h

theorem reset_wf : Memory.wf State.reset.sbox := by decide

theorem enterReset_wf (s : State) : Memory.wf s.enterReset.sbox := by
  simp [Memory.wf]

/-- A read depends on the table alone. -/
theorem memRead_congr {s t : State} (h : t.sbox = s.sbox) (i : Byte) : t.memRead i = s.memRead i := by
  simp only [State.memRead, h]

@[simp] theorem memRead_respond (s : State) (d i : Byte) : (s.respond d).memRead i = s.memRead i := rfl
@[simp] theorem memRead_raise (s : State) (e : CmdError) (i : Byte) :
    (s.raise e).memRead i = s.memRead i := rfl
@[simp] theorem memRead_clearSv (s : State) (i : Byte) : s.clearSv.memRead i = s.memRead i := rfl
@[simp] theorem memRead_setScore (s : State) (c m i : Byte) :
    (s.setScore c m).memRead i = s.memRead i := rfl
@[simp] theorem memRead_idle (s : State) (i : Byte) : s.idle.memRead i = s.memRead i := rfl
@[simp] theorem memRead_popInput (s : State) (i : Byte) : s.popInput.memRead i = s.memRead i := rfl
@[simp] theorem memRead_presentWord (s : State) (w : CmdWord) (i : Byte) :
    (s.presentWord w).memRead i = s.memRead i := rfl
@[simp] theorem memRead_enterReset (s : State) (i : Byte) : s.enterReset.memRead i = none := rfl
@[simp] theorem memRead_hardReset (s : State) (i : Byte) : s.hardReset.memRead i = none := rfl

@[simp] theorem memRead_memWrite_same (s : State) (i v : Byte) :
    (s.memWrite i v).memRead i = some v :=
  read_write_same s.sbox i.toNat v

theorem memRead_memWrite_other (s : State) {i j : Byte} (v : Byte) (h : j ≠ i) :
    (s.memWrite i v).memRead j = s.memRead j :=
  read_write_other s.sbox v (fun e => h (BitVec.eq_of_toNat_eq e))

/-- Everything a run of writes over a list of indexes can do. -/
theorem foldl_write (f : Byte → Byte) (l : List Byte) (m : Memory) :
    let t := l.foldl (fun t i => Memory.write t i.toNat (f i)) m
    (∀ j : Byte, Memory.read t j.toNat = if j ∈ l then some (f j) else Memory.read m j.toNat) ∧
    (Memory.wf m → Memory.wf t) := by
  induction l generalizing m with
  | nil => simp
  | cons i l ih =>
    obtain ⟨hr, hw⟩ := ih (Memory.write m i.toNat (f i))
    refine ⟨fun j => ?_, fun hm => hw (write_wf _ i.isLt hm)⟩
    rw [List.foldl_cons, hr j]
    by_cases hl : j ∈ l
    · simp [hl]
    · by_cases hj : j = i
      · subst hj
        simp [hl, read_write_same]
      · have hn : j.toNat ≠ i.toNat := fun e => hj (BitVec.eq_of_toNat_eq e)
        simp [hl, hj, read_write_other m _ hn]

theorem mem_allBytes (i : Byte) : i ∈ allBytes :=
  List.mem_map.mpr ⟨i.toNat, List.mem_range.mpr i.isLt, by simp⟩

theorem memRead_genTable (s : State) (i : Byte) : s.genTable.memRead i = some (sboxEntry i) := by
  rw [State.memRead, genTable_sbox, Memory.genAll, (foldl_write sboxEntry allBytes s.sbox).1 i,
    if_pos (mem_allBytes i)]

theorem genTable_wf (s : State) (h : Memory.wf s.sbox) : Memory.wf s.genTable.sbox := by
  rw [genTable_sbox, Memory.genAll]
  exact (foldl_write sboxEntry allBytes s.sbox).2 h

/-- Two tables in canonical form that read alike are equal. -/
theorem wf_ext {m n : Memory} (hm : Memory.wf m) (hn : Memory.wf n)
    (h : ∀ i, Memory.read m i = Memory.read n i) : m = n := by
  have read_head : ∀ (c : Host.Cell) (l : Memory), Memory.read (c :: l) c.1 = some c.2 := by
    intro c l
    simp [Memory.read]
  have read_none : ∀ (l : Memory) (i : Nat), (∀ c ∈ l, i < c.1) → Memory.read l i = none := by
    intro l i hl
    induction l with
    | nil => rfl
    | cons c l ih =>
      have hc := hl c List.mem_cons_self
      rw [Memory.read, if_neg (by omega)]
      exact ih fun d hd => hl d (List.mem_cons_of_mem _ hd)
  induction m generalizing n with
  | nil =>
    cases n with
    | nil => rfl
    | cons d n =>
      have := h d.1
      rw [read_head] at this
      cases this
  | cons c m ih =>
    cases n with
    | nil =>
      have := h c.1
      rw [read_head] at this
      cases this
    | cons d n =>
      obtain ⟨hcm, hm'⟩ := List.pairwise_cons.mp hm.1
      obtain ⟨hdn, hn'⟩ := List.pairwise_cons.mp hn.1
      have hkey : c.1 = d.1 := by
        rcases Nat.lt_trichotomy c.1 d.1 with hlt | heq | hgt
        · have hc := h c.1
          rw [read_head, Memory.read, if_neg (by omega),
            read_none n c.1 (fun e he => hlt.trans (hdn e he))] at hc
          cases hc
        · exact heq
        · have hd := h d.1
          rw [read_head, Memory.read, if_neg (by omega),
            read_none m d.1 (fun e he => hgt.trans (hcm e he))] at hd
          cases hd
      have hval : c.2 = d.2 := by
        have hc := h c.1
        rw [read_head, hkey, read_head] at hc
        exact Option.some.inj hc
      have htail : m = n := by
        refine ih ⟨hm', fun e he => hm.2 e (List.mem_cons_of_mem _ he)⟩
          ⟨hn', fun e he => hn.2 e (List.mem_cons_of_mem _ he)⟩ ?_
        intro i
        by_cases hi : c.1 = i
        · subst hi
          rw [read_none m c.1 hcm, hkey, read_none n d.1 hdn]
        · have := h i
          rwa [Memory.read, if_neg hi, Memory.read, if_neg (hkey ▸ hi)] at this
      rw [htail, Prod.ext hkey hval]

end Sys2Proof.Machine
end

