-- ==== Sys2Proof/Laws/Table.lean ====
section
/-! SUPPORT. The written bits, `TV`, and the table NLA reads. -/

namespace Sys2Proof.Machine

theorem written_iff (s : State) (i : Byte) : s.written i = true ↔ ∃ v, s.memRead i = some v := by
  simp [State.written, Option.isSome_iff_exists]

theorem written_congr {s t : State} (h : t.sbox = s.sbox) (i : Byte) : t.written i = s.written i := by
  simp only [State.written, memRead_congr h]

theorem tv_iff (s : State) : s.tv = true ↔ ∀ i, s.written i = true := by
  simp [State.tv]

theorem tv_congr {s t : State} (h : t.sbox = s.sbox) : t.tv = s.tv := by
  simp only [State.tv, written_congr h]

theorem readTable_congr {s t : State} (h : t.sbox = s.sbox) : t.readTable = s.readTable := by
  cases s
  cases t
  subst h
  rfl

theorem readTable_none_iff (s : State) : s.readTable = none ↔ s.tv = false := by
  rw [← Bool.not_eq_true, tv_iff]
  unfold State.readTable
  split <;> simp_all

theorem readTable_some_iff (s : State) : (∃ t, s.readTable = some t) ↔ s.tv = true := by
  rw [tv_iff]
  unfold State.readTable
  split <;> simp_all

/-- What NLA reads is the table's contents. -/
theorem memRead_of_readTable {s : State} {t : Table} (h : s.readTable = some t) (i : Byte) :
    s.memRead i = some (t.entry i) := by
  unfold State.readTable at h
  split at h
  · rename_i hw
    obtain rfl := Option.some.inj h
    rw [Table.entry, Vector.get_eq_getElem, Vector.getElem_ofFn]
    exact (Option.some_get (hw i)).symm
  · cases h

/-- A table that holds `f` at every index reads as `f`. -/
theorem readTable_of_memRead {s : State} {f : Byte → Byte} (h : ∀ i, s.memRead i = some (f i)) :
    s.readTable = some (Vector.ofFn fun k => f (BitVec.ofFin k)) := by
  have hw : ∀ i, s.written i = true := fun i => (written_iff s i).mpr ⟨_, h i⟩
  unfold State.readTable
  rw [dif_pos hw]
  congr
  funext k
  simp [h]

theorem tv_genTable (s : State) : s.genTable.tv = true :=
  (tv_iff _).mpr fun i => (written_iff _ i).mpr ⟨_, memRead_genTable s i⟩

end Sys2Proof.Machine
end

