-- ==== Sys2Proof/Laws/Exec.lean ====
section
/-! SUPPORT. What each shared operation leaves alone, and once for all what a command can do to the state. -/

namespace Sys2Proof.Machine

theorem unchanged_respond (s : State) (d : Byte) : Unchanged s (s.respond d) :=
  ⟨fun _ => rfl, rfl, rfl, rfl, rfl, rfl, rfl⟩

theorem errorEffect_raise (s : State) (e : CmdError) : ErrorEffect e.code s (s.raise e) :=
  ⟨rfl, rfl, rfl, fun _ => rfl, rfl, rfl, rfl, rfl⟩

@[simp] theorem exec_gfadd (a b : Byte) (s : State) :
    exec (.gfadd a b) s = .next (s.respond (gfAdd a b)) := rfl

@[simp] theorem exec_gfmul (a b : Byte) (s : State) :
    exec (.gfmul a b) s = .next (s.respond (gfMul a b)) := rfl

@[simp] theorem exec_gfinv (a : Byte) (s : State) :
    exec (.gfinv a) s = .next (s.respond (gfInv a)) := rfl

@[simp] theorem exec_affine (a : Byte) (s : State) :
    exec (.affine a) s = .next (s.respond (affineMap a)) := rfl

@[simp] theorem exec_gen (s : State) :
    exec .gen s = .next (s.genTable.respond 0x00#8) := rfl

@[simp] theorem exec_wrsb (i v : Byte) (s : State) :
    exec (.wrsb i v) s = .next ((s.memWrite i v).clearSv.respond 0x00#8) := rfl

@[simp] theorem exec_rdst (s : State) : exec .rdst s = .next (s.respond s.statusByte) := rfl

@[simp] theorem exec_srst (s : State) : exec .srst s = .next (s.enterReset.respond 0x00#8) := rfl

theorem exec_rdsb_some {i v : Byte} {s : State} (h : s.memRead i = some v) :
    exec (.rdsb i) s = .next (s.respond v) := by
  show execRdsb i s = _
  rw [execRdsb, h]

theorem exec_rdsb_none {i : Byte} {s : State} (h : s.memRead i = none) :
    exec (.rdsb i) s = .next (s.raise .notReady) := by
  show execRdsb i s = _
  rw [execRdsb, h]

theorem exec_nla_some {s : State} {t : Table} (h : s.readTable = some t) :
    exec .nla s = .next ((s.setScore (BitVec.ofNat 8 (scoreOf t)) (BitVec.ofNat 8 (maxBiasOf t))).respond
      (BitVec.ofNat 8 (scoreOf t))) := by
  show execNla s = _
  rw [execNla, h]

theorem exec_nla_none {s : State} (h : s.readTable = none) :
    exec .nla s = .next (s.raise .notReady) := by
  show execNla s = _
  rw [execNla, h]

theorem exec_rdsc_valid {s : State} (h : s.sv = true) : exec .rdsc s = .next (s.respond s.score) := by
  show execRdsc s = _
  rw [execRdsc, if_pos h]

theorem exec_rdsc_invalid {s : State} (h : s.sv = false) :
    exec .rdsc s = .next (s.raise .notReady) := by
  show execRdsc s = _
  rw [execRdsc, if_neg (by simp [h])]

theorem exec_rdmb_valid {s : State} (h : s.sv = true) :
    exec .rdmb s = .next (s.respond s.maxBias) := by
  show execRdmb s = _
  rw [execRdmb, if_pos h]

theorem exec_rdmb_invalid {s : State} (h : s.sv = false) :
    exec .rdmb s = .next (s.raise .notReady) := by
  show execRdmb s = _
  rw [execRdmb, if_neg (by simp [h])]

/-- The four commands that write more than the error flags. -/
def writesState : Instr → Bool
  | .gen | .wrsb _ _ | .nla | .srst => true
  | .gfadd _ _ | .gfmul _ _ | .gfinv _ | .affine _ | .rdsb _ | .rdsc | .rdmb | .rdst => false

/-- Everything a command can do: answer and write nothing, raise NotReady, or one of the four commands that write. -/
inductive Effect (i : Instr) (s : State) : State → Prop where
  /-- it only answers -/
  | answer (d : Byte) (quiet : writesState i = false) (ready : ¬ NotReadyFor i s) : Effect i s (s.respond d)
  /-- what it reads has not been written -/
  | notReady (unready : NotReadyFor i s) : Effect i s (s.raise .notReady)
  /-- GEN -/
  | gen (h : i = .gen) : Effect i s (s.genTable.respond 0x00#8)
  /-- WRSB -/
  | wrsb (j v : Byte) (h : i = .wrsb j v) : Effect i s ((s.memWrite j v).clearSv.respond 0x00#8)
  /-- NLA on a complete table -/
  | nla (t : Table) (h : i = .nla) (ht : s.readTable = some t) :
      Effect i s ((s.setScore (BitVec.ofNat 8 (scoreOf t)) (BitVec.ofNat 8 (maxBiasOf t))).respond
        (BitVec.ofNat 8 (scoreOf t)))
  /-- SRST -/
  | srst (h : i = .srst) : Effect i s (s.enterReset.respond 0x00#8)

/-- Every command answers a next state, and that state is one of the effects. -/
theorem exec_effect (i : Instr) (s : State) : ∃ t, exec i s = .next t ∧ Effect i s t := by
  cases i with
  | gfadd a b => exact ⟨_, rfl, .answer _ rfl id⟩
  | gfmul a b => exact ⟨_, rfl, .answer _ rfl id⟩
  | gfinv a => exact ⟨_, rfl, .answer _ rfl id⟩
  | affine a => exact ⟨_, rfl, .answer _ rfl id⟩
  | gen => exact ⟨_, rfl, .gen rfl⟩
  | rdsb j =>
    cases h : s.memRead j with
    | none => exact ⟨_, exec_rdsb_none h, .notReady (by simp [NotReadyFor, State.written, h])⟩
    | some v => exact ⟨_, exec_rdsb_some h, .answer _ rfl (by simp [NotReadyFor, State.written, h])⟩
  | wrsb j v => exact ⟨_, rfl, .wrsb j v rfl⟩
  | nla =>
    cases h : s.readTable with
    | none => exact ⟨_, exec_nla_none h, .notReady ((readTable_none_iff s).mp h)⟩
    | some t => exact ⟨_, exec_nla_some h, .nla t rfl h⟩
  | rdsc =>
    cases h : s.sv with
    | false => exact ⟨_, exec_rdsc_invalid h, .notReady h⟩
    | true => exact ⟨_, exec_rdsc_valid h, .answer _ rfl (by simp [NotReadyFor, h])⟩
  | rdmb =>
    cases h : s.sv with
    | false => exact ⟨_, exec_rdmb_invalid h, .notReady h⟩
    | true => exact ⟨_, exec_rdmb_valid h, .answer _ rfl (by simp [NotReadyFor, h])⟩
  | rdst => exact ⟨_, rfl, .answer _ rfl id⟩
  | srst => exact ⟨_, rfl, .srst rfl⟩

/-- The inversion of `exec`. -/
theorem effect_of_exec {i : Instr} {s t : State} (h : exec i s = .next t) : Effect i s t := by
  obtain ⟨u, hu, he⟩ := exec_effect i s
  rw [hu] at h
  cases h
  exact he

end Sys2Proof.Machine
end

