-- ==== Sys2Proof/Laws/PerInstr.lean ====
section
/-! SUPPORT. Statements about every command as a term, one lemma a constructor. Family WordOfRow: the word of a command is
accepted by the row of R63 with the command's mnemonic, and its fields are well formed. -/

namespace Sys2Proof.Laws

/-- The word of the command is its row's word, and it is a legal one. -/
def WordOfRow.Statement (i : Instr) : Prop :=
  (∃ r ∈ opTable, r.mnemonic = i.mnemonic ∧ r.accepts (encode i) = true) ∧ (fieldsOf (encode i)).wf = true

/-- A word under a mask, field by field. -/
theorem toWord_and (c d : Cmd20) :
    c.toWord &&& d.toWord = (Cmd20.toWord ⟨c.op &&& d.op, c.a &&& d.a, c.b &&& d.b⟩) := by
  apply BitVec.eq_of_getLsbD_eq
  intro i hi
  simp only [Cmd20.toWord, BitVec.getLsbD_and, BitVec.getLsbD_append]
  interval_cases i <;> simp

theorem WordOfRow.accepts_of_fields {r : OpRow} {i : Instr} (m p : Cmd20) (hm : r.mask = m.toWord)
    (hp : r.pattern = p.toWord)
    (h : (⟨(fieldsOfInstr i).op &&& m.op, (fieldsOfInstr i).a &&& m.a, (fieldsOfInstr i).b &&& m.b⟩ : Cmd20) = p) :
    r.accepts (encode i) = true := by
  simp only [OpRow.accepts, encode, hm, hp, beq_iff_eq]
  rw [toWord_and, h]

theorem WordOfRow.gfadd (a b : Byte) : WordOfRow.Statement (.gfadd a b) :=
  ⟨⟨⟨.gfadd, 0x10000#20, 0xF0000#20⟩, by decide, rfl,
    accepts_of_fields ⟨0xF#4, 0#8, 0#8⟩ ⟨0x1#4, 0#8, 0#8⟩ rfl rfl (by simp [fieldsOfInstr])⟩,
    by simp [encode, fieldsOfInstr, Cmd20.wf]⟩

theorem WordOfRow.gfmul (a b : Byte) : WordOfRow.Statement (.gfmul a b) :=
  ⟨⟨⟨.gfmul, 0x20000#20, 0xF0000#20⟩, by decide, rfl,
    accepts_of_fields ⟨0xF#4, 0#8, 0#8⟩ ⟨0x2#4, 0#8, 0#8⟩ rfl rfl (by simp [fieldsOfInstr])⟩,
    by simp [encode, fieldsOfInstr, Cmd20.wf]⟩

theorem WordOfRow.gfinv (a : Byte) : WordOfRow.Statement (.gfinv a) :=
  ⟨⟨⟨.gfinv, 0x30000#20, 0xF00FF#20⟩, by decide, rfl,
    accepts_of_fields ⟨0xF#4, 0#8, 0xFF#8⟩ ⟨0x3#4, 0#8, 0#8⟩ rfl rfl (by simp [fieldsOfInstr])⟩,
    by simp [encode, fieldsOfInstr, Cmd20.wf]⟩

theorem WordOfRow.affine (a : Byte) : WordOfRow.Statement (.affine a) :=
  ⟨⟨⟨.affine, 0x40000#20, 0xF00FF#20⟩, by decide, rfl,
    accepts_of_fields ⟨0xF#4, 0#8, 0xFF#8⟩ ⟨0x4#4, 0#8, 0#8⟩ rfl rfl (by simp [fieldsOfInstr])⟩,
    by simp [encode, fieldsOfInstr, Cmd20.wf]⟩

theorem WordOfRow.gen : WordOfRow.Statement .gen :=
  ⟨⟨⟨.gen, 0x50000#20, 0xFFFFF#20⟩, by decide, rfl, by decide⟩, by decide⟩

theorem WordOfRow.rdsb (i : Byte) : WordOfRow.Statement (.rdsb i) :=
  ⟨⟨⟨.rdsb, 0x60000#20, 0xF00FF#20⟩, by decide, rfl,
    accepts_of_fields ⟨0xF#4, 0#8, 0xFF#8⟩ ⟨0x6#4, 0#8, 0#8⟩ rfl rfl (by simp [fieldsOfInstr])⟩,
    by simp [encode, fieldsOfInstr, Cmd20.wf]⟩

theorem WordOfRow.wrsb (i v : Byte) : WordOfRow.Statement (.wrsb i v) :=
  ⟨⟨⟨.wrsb, 0x70000#20, 0xF0000#20⟩, by decide, rfl,
    accepts_of_fields ⟨0xF#4, 0#8, 0#8⟩ ⟨0x7#4, 0#8, 0#8⟩ rfl rfl (by simp [fieldsOfInstr])⟩,
    by simp [encode, fieldsOfInstr, Cmd20.wf]⟩

theorem WordOfRow.nla : WordOfRow.Statement .nla :=
  ⟨⟨⟨.nla, 0x80000#20, 0xFFFFF#20⟩, by decide, rfl, by decide⟩, by decide⟩

theorem WordOfRow.rdsc : WordOfRow.Statement .rdsc :=
  ⟨⟨⟨.rdsc, 0x90000#20, 0xFFFFF#20⟩, by decide, rfl, by decide⟩, by decide⟩

theorem WordOfRow.rdmb : WordOfRow.Statement .rdmb :=
  ⟨⟨⟨.rdmb, 0xA0000#20, 0xFFFFF#20⟩, by decide, rfl, by decide⟩, by decide⟩

theorem WordOfRow.rdst : WordOfRow.Statement .rdst :=
  ⟨⟨⟨.rdst, 0xB0000#20, 0xFFFFF#20⟩, by decide, rfl, by decide⟩, by decide⟩

theorem WordOfRow.srst : WordOfRow.Statement .srst :=
  ⟨⟨⟨.srst, 0xF0000#20, 0xFFFFF#20⟩, by decide, rfl, by decide⟩, by decide⟩

end Sys2Proof.Laws
end

