-- ==== Sys2Proof/Laws/Search.lean ====
section
/-! SUPPORT. The running maximum of the search: what a fold of `max` over a list finds, and the lists it runs over. -/

namespace Sys2Proof.Machine

/-- A running maximum bounds its start and every value, and is one of them. -/
theorem foldl_max_spec {α : Type} (f : α → Nat) (l : List α) (m : Nat) :
    (∀ x ∈ l, f x ≤ l.foldl (fun n x => max n (f x)) m) ∧ m ≤ l.foldl (fun n x => max n (f x)) m ∧
    (l.foldl (fun n x => max n (f x)) m = m ∨ ∃ x ∈ l, l.foldl (fun n x => max n (f x)) m = f x) := by
  induction l generalizing m with
  | nil => simp
  | cons a l ih =>
    obtain ⟨hle, hm, hor⟩ := ih (max m (f a))
    simp only [List.foldl_cons]
    refine ⟨?_, by omega, ?_⟩
    · intro x hx
      rcases List.mem_cons.mp hx with rfl | hx
      · omega
      · exact hle x hx
    · rcases hor with h | ⟨x, hx, h⟩
      · rw [h]
        rcases le_total m (f a) with hma | hma
        · exact .inr ⟨a, List.mem_cons_self, by omega⟩
        · exact .inl (by omega)
      · exact .inr ⟨x, List.mem_cons_of_mem _ hx, h⟩

theorem mem_nonzeroMasks (x : Byte) : x ∈ nonzeroMasks ↔ x ≠ 0x00#8 := by
  constructor
  · intro h
    obtain ⟨n, hn, rfl⟩ := List.mem_map.mp h
    obtain ⟨k, hk, rfl⟩ := List.mem_range'.mp hn
    intro h0
    have := congrArg BitVec.toNat h0
    simp only [BitVec.toNat_ofNat] at this
    omega
  · intro h
    have hx : x.toNat ≠ 0 := fun h0 => h (BitVec.eq_of_toNat_eq h0)
    have := x.isLt
    exact List.mem_map.mpr ⟨x.toNat, List.mem_range'.mpr ⟨x.toNat - 1, by omega, by omega⟩, by simp⟩

/-- The nested loops of R128 are one loop over pairs `(u, v)`. -/
theorem maxBiasOf_eq_foldl_pairs (t : Table) :
    maxBiasOf t = (nonzeroMasks.flatMap fun v => nonzeroMasks.map fun u => (u, v)).foldl
      (fun m p => max m (bias t p.1 p.2)) 0 := by
  have inner : ∀ (l : List Byte) (m : Nat),
      l.foldl (fun m v => nonzeroMasks.foldl (fun n u => max n (bias t u v)) m) m =
        (l.flatMap fun v => nonzeroMasks.map fun u => (u, v)).foldl
          (fun m p => max m (bias t p.1 p.2)) m := by
    intro l
    induction l with
    | nil => exact fun _ => rfl
    | cons a l ih =>
      intro m
      rw [List.foldl_cons, ih, List.flatMap_cons, List.foldl_append, List.foldl_map]
  exact inner nonzeroMasks 0

end Sys2Proof.Machine
end

