-- ==== Sys2Proof/Laws/Step.lean ====
section
/-! SUPPORT. The step, taken apart once: which action the host takes next, and what the core then does. -/

namespace Sys2Proof.Machine

theorem perform_ok {w : CmdWord} {i : Instr} (s : State) (h : decode w = .ok i) :
    perform w s = exec i s := by
  rw [perform, h]

theorem perform_error {w : CmdWord} {e : DecodeError} (s : State) (h : decode w = .error e) :
    perform w s = .next (s.raise .illegal) := by
  rw [perform, h]

theorem step_idle {s : State} (h : s.input = []) : step s = .next s.idle := by
  rw [step, transact, h]

theorem step_action {s : State} {a : HostAction} {rest : List HostAction} (h : s.input = a :: rest) :
    step s = act a s.popInput := by
  rw [step, transact, h]

theorem step_command {s : State} {w : CmdWord} {rest : List HostAction}
    (h : s.input = .command w :: rest) : step s = perform w s.popInput :=
  step_action h

theorem step_hardReset {s : State} {rest : List HostAction} (h : s.input = .hardReset :: rest) :
    step s = .next s.popInput.hardReset :=
  step_action h

/-- Everything a step can do. -/
theorem step_cases {s t : State} (h : step s = .next t) :
    (s.input = [] ∧ t = s.idle) ∨
    (∃ rest, s.input = .hardReset :: rest ∧ t = s.popInput.hardReset) ∨
    (∃ w rest e, s.input = .command w :: rest ∧ decode w = .error e ∧ t = s.popInput.raise .illegal) ∨
    (∃ w rest i, s.input = .command w :: rest ∧ decode w = .ok i ∧ Effect i s.popInput t) := by
  cases hin : s.input with
  | nil =>
    rw [step_idle hin] at h
    cases h
    exact .inl ⟨rfl, rfl⟩
  | cons a rest =>
    cases a with
    | hardReset =>
      rw [step_hardReset hin] at h
      cases h
      exact .inr (.inl ⟨rest, rfl, rfl⟩)
    | command w =>
      rw [step_command hin] at h
      cases hd : decode w with
      | error e =>
        rw [perform_error _ hd] at h
        cases h
        exact .inr (.inr (.inl ⟨w, rest, e, rfl, hd, rfl⟩))
      | ok i =>
        rw [perform_ok _ hd] at h
        exact .inr (.inr (.inr ⟨w, rest, i, rfl, hd, effect_of_exec h⟩))

end Sys2Proof.Machine
end

