-- ==== Sys2Proof/Laws/Transform.lean ====
section
/-! SUPPORT. The search of 44_nonlinearity.md R128 a truth table at a time: one combination of output bits gives a table of
256 bits, and a recursive transform of it counts its agreements with all 256 input masks at once. It equals the search as
the spec states it (`maxBiasOf_eq_agreements`) and is cheap enough for Lean's kernel to evaluate on a table of numerals. -/

namespace Sys2Proof.Machine

/-- The inner product of the low `k` bits of two numbers. -/
def innerBits : Nat → Nat → Nat → Bool
  | 0, _, _ => false
  | k + 1, u, x => (u.testBit k && x.testBit k) ^^ innerBits k u x

/-- On how many of the 2^k inputs a truth table `f` agrees with each linear function of `k` bits: entry `u` of the list
counts the agreements with `innerBits k u`. -/
def agreements : Nat → List Bool → List Nat
  | 0, f => [f.countP (! ·)]
  | k + 1, f =>
    let a := agreements k (f.take (2 ^ k))
    let b := agreements k (f.drop (2 ^ k))
    List.zipWith (· + ·) a b ++ List.zipWith (fun p q => p + (2 ^ k - q)) a b

theorem innerBits_add_high {k j : Nat} (u x : Nat) (h : k ≤ j) :
    innerBits k u (2 ^ j + x) = innerBits k u x := by
  induction k with
  | zero => rfl
  | succ k ih => rw [innerBits, innerBits, ih (by omega), Nat.testBit_two_pow_add_gt (by omega)]

theorem innerBits_low {k j : Nat} (u x : Nat) (h : k ≤ j) :
    innerBits k (2 ^ j + u) x = innerBits k u x := by
  induction k with
  | zero => rfl
  | succ k ih => rw [innerBits, innerBits, ih (by omega), Nat.testBit_two_pow_add_gt (by omega)]

/-- On how many of the 2^k inputs `f` agrees with the linear function of mask `u`. -/
def agreement (k u : Nat) (f : Nat → Bool) : Nat :=
  (List.range (2 ^ k)).countP (fun x => innerBits k u x == f x)

theorem agreement_succ (k u : Nat) (f : Nat → Bool) :
    agreement (k + 1) u f = agreement k u f +
      (if u.testBit k then 2 ^ k - agreement k u (fun x => f (2 ^ k + x))
        else agreement k u (fun x => f (2 ^ k + x))) := by
  have hr : List.range (2 ^ (k + 1)) = List.range (2 ^ k) ++ (List.range (2 ^ k)).map (2 ^ k + ·) := by
    rw [pow_succ, Nat.mul_two, List.range_add]
  have low : ∀ x ∈ List.range (2 ^ k), innerBits (k + 1) u x = innerBits k u x := by
    intro x hx
    rw [innerBits, Nat.testBit_lt_two_pow (List.mem_range.mp hx)]
    simp
  have high : ∀ x ∈ List.range (2 ^ k), innerBits (k + 1) u (2 ^ k + x) = (u.testBit k ^^ innerBits k u x) := by
    intro x hx
    rw [innerBits, innerBits_add_high u x le_rfl, Nat.testBit_two_pow_add_eq,
      Nat.testBit_lt_two_pow (List.mem_range.mp hx)]
    simp
  rw [agreement, hr, List.countP_append, List.countP_map]
  congr 1
  · exact List.countP_congr fun x hx => by rw [low x hx]
  · split
    · rename_i hb
      have hc := List.length_eq_countP_add_countP (l := List.range (2 ^ k)) (fun x => innerBits k u x == f (2 ^ k + x))
      rw [List.length_range] at hc
      rw [agreement]
      have : (List.range (2 ^ k)).countP ((fun x => innerBits (k + 1) u x == f x) ∘ (2 ^ k + ·)) =
          (List.range (2 ^ k)).countP (fun x => decide ¬ (innerBits k u x == f (2 ^ k + x)) = true) := by
        refine List.countP_congr fun x hx => ?_
        simp only [Function.comp, high x hx, hb]
        cases innerBits k u x <;> cases f (2 ^ k + x) <;> decide
      rw [this]
      omega
    · rename_i hb
      refine List.countP_congr fun x hx => ?_
      simp [Function.comp, high x hx, hb]

/-- The transform counts what each entry is said to count. -/
theorem agreements_eq (k : Nat) (f : Nat → Bool) :
    agreements k ((List.range (2 ^ k)).map f) = (List.range (2 ^ k)).map (fun u => agreement k u f) := by
  induction k generalizing f with
  | zero => simp [agreements, agreement, innerBits]
  | succ k ih =>
    have hr : List.range (2 ^ (k + 1)) = List.range (2 ^ k) ++ (List.range (2 ^ k)).map (2 ^ k + ·) := by
      rw [pow_succ, Nat.mul_two, List.range_add]
    have ht : ((List.range (2 ^ (k + 1))).map f).take (2 ^ k) = (List.range (2 ^ k)).map f := by
      rw [hr, List.map_append]
      exact List.take_left' (by simp)
    have hd : ((List.range (2 ^ (k + 1))).map f).drop (2 ^ k) =
        (List.range (2 ^ k)).map (fun x => f (2 ^ k + x)) := by
      rw [hr, List.map_append, List.drop_left' (by simp), List.map_map]
      rfl
    rw [agreements, ht, hd, ih, ih, hr, List.map_append, List.map_map,
      List.zipWith_map, List.zipWith_map, List.zipWith_self, List.zipWith_self]
    congr 1
    · refine List.map_congr_left fun u hu => ?_
      have hu := List.mem_range.mp hu
      rw [agreement_succ k u f, Nat.testBit_lt_two_pow hu]
      simp
    · refine List.map_congr_left fun u hu => ?_
      have hu := List.mem_range.mp hu
      have : ∀ g, agreement k (2 ^ k + u) g = agreement k u g := fun g => by
        simp only [agreement, innerBits_low u _ (Nat.le_refl k)]
      rw [Function.comp, agreement_succ k _ f, Nat.testBit_two_pow_add_eq, Nat.testBit_lt_two_pow hu, this, this]
      simp

theorem dot_eq_innerBits (u x : Byte) : dot u x = innerBits 8 u.toNat x.toNat := by
  simp only [dot, parity8, innerBits, BitVec.getLsbD, BitVec.toNat_and, Nat.testBit_and, Bool.false_xor,
    Bool.xor_comm]

theorem matchCount_eq_agreement (t : Table) (u v : Byte) :
    matchCount t u v = agreement 8 u.toNat (fun x => dot v (t.entry (BitVec.ofNat 8 x))) := by
  rw [matchCount, allBytes, List.countP_map, agreement]
  refine List.countP_congr fun x hx => ?_
  have hx := List.mem_range.mp hx
  simp only [Function.comp, dot_eq_innerBits u, BitVec.toNat_ofNat, Nat.mod_eq_of_lt hx]

/-- The truth table of one combination of the output bits, in the order of the inputs. -/
def outputs (t : Table) (v : Byte) : List Bool := t.toList.map (dot v)

/-- The distance of a match count from 128. -/
def distance (c : Nat) : Nat := max (c - 128) (128 - c)

theorem bias_eq_distance (t : Table) (u v : Byte) : bias t u v = distance (matchCount t u v) := by
  rw [bias, distance]
  omega

theorem outputs_eq (t : Table) (v : Byte) :
    outputs t v = (List.range (2 ^ 8)).map (fun x => dot v (t.entry (BitVec.ofNat 8 x))) := by
  apply List.ext_getElem
  · simp [outputs]
  · intro i h1 h2
    simp only [outputs, List.getElem_map, Vector.getElem_toList, List.getElem_range, Table.entry, Vector.get_eq_getElem]
    have : i < 256 := by simpa [outputs] using h1
    simp [Nat.mod_eq_of_lt this]

/-- The search of R128 as 255 transforms of truth tables. -/
theorem maxBiasOf_eq_agreements (t : Table) :
    maxBiasOf t = nonzeroMasks.foldl (fun m v =>
      (agreements 8 (outputs t v)).tail.foldl (fun n c => max n (distance c)) m) 0 := by
  have ht : (List.range (2 ^ 8)).tail = List.range' 1 255 := by
    rw [List.range_eq_range', List.tail_range']
    norm_num
  rw [maxBiasOf]
  refine List.foldl_ext _ _ _ fun m v _ => ?_
  rw [outputs_eq, agreements_eq, ← List.map_tail, ht, nonzeroMasks, List.foldl_map, List.foldl_map]
  refine List.foldl_ext _ _ _ fun n u hu => ?_
  obtain ⟨i, hi, rfl⟩ := List.mem_range'.mp hu
  rw [bias_eq_distance, matchCount_eq_agreement, BitVec.toNat_ofNat, Nat.mod_eq_of_lt (by omega)]

end Sys2Proof.Machine
end

