-- ==== Sys2Proof/Tests/Slice0.lean ====
section
/-! SUPPORT. Tests of the model's own: the checks of WellFormed, words written out from the spec, one step on a small state,
and, for every statement that has hypotheses, a concrete input that meets them. Expected values are those of
95_test_vectors.md and of the examples and corner cases of the rules. -/

set_option maxRecDepth 20000

namespace Sys2Proof.Machine

/-! ### WellFormed -/

theorem test_wf_reserved_opcode : Cmd20.wf ⟨0xC#4, 0x12#8, 0x34#8⟩ = false := by decide
theorem test_wf_reserved_opcode_zero : Cmd20.wf ⟨0x0#4, 0x00#8, 0x00#8⟩ = false := by decide
theorem test_wf_nonzero_b : Cmd20.wf ⟨0x6#4, 0x00#8, 0x01#8⟩ = false := by decide
theorem test_wf_nonzero_a : Cmd20.wf ⟨0xF#4, 0x01#8, 0x00#8⟩ = false := by decide
theorem test_wf_legal : Cmd20.wf ⟨0x6#4, 0xFF#8, 0x00#8⟩ = true := by decide
theorem test_wf_line_operand_count : AsmLine.wf (.command .gfadd [1]) = false := by decide
theorem test_wf_line_operand_range : AsmLine.wf (.command .gfinv [256]) = false := by decide
theorem test_wf_line_word_range : AsmLine.wf (.word 0x100000) = false := by decide
theorem test_wf_line_gfsqr_range : AsmLine.wf (.gfsqr 256) = false := by decide
theorem test_wf_line_legal : AsmLine.wf (.command .wrsb [255, 0]) = true := by decide

/-! ### Words written out from the spec's encoding (30_encoding.md R61, R63; 95_test_vectors.md section 7) -/

theorem test_decode_gfadd : decode 0b00010101011110000011#20 = .ok (.gfadd 0x57#8 0x83#8) := by decide
theorem test_decode_gfmul : decode 0b00101000001101010111#20 = .ok (.gfmul 0x83#8 0x57#8) := by decide
theorem test_decode_gfinv : decode 0b00110101001100000000#20 = .ok (.gfinv 0x53#8) := by decide
theorem test_decode_affine : decode 0b01001100101000000000#20 = .ok (.affine 0xCA#8) := by decide
theorem test_decode_gen : decode 0b01010000000000000000#20 = .ok .gen := by decide
theorem test_decode_rdsb : decode 0b01101111111100000000#20 = .ok (.rdsb 0xFF#8) := by decide
theorem test_decode_wrsb : decode 0b01110001000010101011#20 = .ok (.wrsb 0x10#8 0xAB#8) := by decide
theorem test_decode_nla : decode 0b10000000000000000000#20 = .ok .nla := by decide
theorem test_decode_rdsc : decode 0b10010000000000000000#20 = .ok .rdsc := by decide
theorem test_decode_rdmb : decode 0b10100000000000000000#20 = .ok .rdmb := by decide
theorem test_decode_rdst : decode 0b10110000000000000000#20 = .ok .rdst := by decide
theorem test_decode_srst : decode 0b11110000000000000000#20 = .ok .srst := by decide
theorem test_decode_reserved : decode 0x00000#20 = .error (.reservedOpcode 0x0#4) ∧
    decode 0xD0000#20 = .error (.reservedOpcode 0xD#4) ∧ decode 0xE0000#20 = .error (.reservedOpcode 0xE#4) := by
  decide
theorem test_decode_mbz : decode 0x30201#20 = .error (.nonzeroB 0x01#8) ∧
    decode 0x50100#20 = .error (.nonzeroA 0x01#8) ∧ decode 0xFFFFF#20 = .error (.nonzeroA 0xFF#8) := by decide
theorem test_decode_table_word : decodeTableWord 24 0x7ABCD = some (.wrsb 0xAB#8 0xCD#8) ∧
    decodeTableWord 24 0xC1234 = none ∧ decodeTableWord 24 0x110000 = none := by decide

/-! ### One step on a small state -/

/-- The response of one step from a state, and the status byte after it. -/
def answerOf (s : State) : Option (Option RspWord × Byte) :=
  match step s with
  | .next t => some (t.rsp, t.statusByte)
  | .fault _ => none
  | .refused _ => none

/-- The reset state, in which the host presents a word. -/
def resetWith (w : CmdWord) : State := State.reset.presentWord w

/-- The reset state with one entry written. -/
def oneEntry (i v : Byte) : State := State.reset.memWrite i v

theorem test_gfadd : answerOf (resetWith 0x1C157#20) = some (some 0x096#12, 0x00#8) := by decide
theorem test_gfmul : answerOf (resetWith 0x25783#20) = some (some 0x0C1#12, 0x00#8) := by decide
theorem test_gfmul_accumulator_reading : answerOf (resetWith 0x20100#20) = some (some 0x000#12, 0x00#8) := by
  decide
theorem test_gfinv : answerOf (resetWith 0x30200#20) = some (some 0x08D#12, 0x00#8) := by decide +kernel
theorem test_gfinv_zero : answerOf (resetWith 0x30000#20) = some (some 0x000#12, 0x00#8) := by decide +kernel
theorem test_affine : answerOf (resetWith 0x4CA00#20) = some (some 0x0ED#12, 0x00#8) := by decide
theorem test_affine_to_zero : answerOf (resetWith 0x40500#20) = some (some 0x000#12, 0x00#8) := by decide
theorem test_gen_entries : ((State.reset.genTable.memRead 0x00#8, State.reset.genTable.memRead 0x53#8) =
    (some 0x63#8, some 0xED#8)) := by
  rw [memRead_genTable, memRead_genTable]
  decide +kernel
theorem test_gen_keeps_error_and_score :
    let s : State := { State.reset with es := true, fe := 0x2#4, sv := true, score := 0x70#8 }
    (s.genTable.sv, s.genTable.es, s.genTable.fe, s.genTable.score) = (false, true, 0x2#4, 0x70#8) := by decide
theorem test_rdsb_unwritten : answerOf (resetWith 0x61000#20) = some (some 0x200#12, 0x24#8) := by decide
theorem test_rdsb_written : answerOf ((oneEntry 0x10#8 0xAB#8).presentWord 0x61000#20) =
    some (some 0x0AB#12, 0x00#8) := by decide
theorem test_wrsb_clears_sv : answerOf ({ oneEntry 0x00#8 0x63#8 with sv := true }.presentWord 0x70063#20) =
    some (some 0x000#12, 0x00#8) := by decide
theorem test_wrsb_then_rdsb : ((oneEntry 0x10#8 0xAB#8).memWrite 0x10#8 0x63#8).sbox = [(0x10, 0x63#8)] := by decide
theorem test_nla_unready : answerOf ((oneEntry 0x00#8 0x63#8).presentWord 0x80000#20) =
    some (some 0x200#12, 0x24#8) := by decide
theorem test_rdsc : answerOf ({ State.reset with sv := true, score := 0x70#8, maxBias := 0x10#8 }.presentWord 0x90000#20) =
    some (some 0x070#12, 0x02#8) := by decide
theorem test_rdsc_unready : answerOf (resetWith 0x90000#20) = some (some 0x200#12, 0x24#8) := by decide
theorem test_rdmb : answerOf ({ State.reset with sv := true, score := 0x70#8, maxBias := 0x10#8 }.presentWord 0xA0000#20) =
    some (some 0x010#12, 0x02#8) := by decide
theorem test_rdmb_unready : answerOf (resetWith 0xA0000#20) = some (some 0x200#12, 0x24#8) := by decide
theorem test_rdst_after_error : answerOf ({ State.reset with es := true, fe := 0x2#4 }.presentWord 0xB0000#20) =
    some (some 0x024#12, 0x24#8) := by decide
theorem test_srst : answerOf ({ oneEntry 0x00#8 0x63#8 with es := true, fe := 0x1#4, sv := true }.presentWord 0xF0000#20) =
    some (some 0x000#12, 0x00#8) := by decide
theorem test_srst_illegal : answerOf ((oneEntry 0x00#8 0x63#8).presentWord 0xF0100#20) =
    some (some 0x100#12, 0x14#8) := by decide
theorem test_first_error_stays : answerOf ({ State.reset with es := true, fe := 0x2#4 }.presentWord 0xC1234#20) =
    some (some 0x100#12, 0x24#8) := by decide
theorem test_illegal_before_not_ready : answerOf (resetWith 0x60001#20) = some (some 0x100#12, 0x14#8) := by decide
theorem test_hard_reset : answerOf { oneEntry 0x00#8 0x63#8 with es := true, fe := 0x1#4, input := [.hardReset] } =
    some (none, 0x00#8) := by decide
theorem test_idle : answerOf { State.reset with es := true, fe := 0x1#4 } = some (none, 0x14#8) := by decide

/-! ### The functions (95_test_vectors.md sections 3, 6.1; 44_nonlinearity.md R125) -/

theorem test_parity : (parity8 0x00#8, parity8 0x01#8, parity8 0x03#8, parity8 0x07#8, parity8 0xFF#8, parity8 0x80#8) =
    (false, true, false, true, false, true) := by decide

/-- The identity table. -/
def identityTable : Table := Vector.ofFn fun k => BitVec.ofFin k

/-- The complement table, T[x] = x ^ 0xFF. -/
def complementTable : Table := Vector.ofFn fun k => BitVec.ofFin k ^^^ 0xFF#8

/-- The table that is 0x00 everywhere. -/
def zeroTable : Table := Vector.ofFn fun _ => 0x00#8

theorem entry_identityTable (x : Byte) : identityTable.entry x = x := by
  simp [identityTable, Table.entry, Vector.get_eq_getElem]
theorem entry_complementTable (x : Byte) : complementTable.entry x = x ^^^ 0xFF#8 := by
  simp [complementTable, Table.entry, Vector.get_eq_getElem]
theorem entry_zeroTable (x : Byte) : zeroTable.entry x = 0x00#8 := by
  simp [zeroTable, Table.entry, Vector.get_eq_getElem]

theorem test_matches_identity_same : matchCount identityTable 0x01#8 0x01#8 = 256 := by
  simp only [matchCount, entry_identityTable]
  decide +kernel
theorem test_matches_identity_other : matchCount identityTable 0x01#8 0x02#8 = 128 := by
  simp only [matchCount, entry_identityTable]
  decide +kernel
theorem test_matches_complement : matchCount complementTable 0x01#8 0x01#8 = 0 := by
  simp only [matchCount, entry_complementTable]
  decide +kernel

/-- The table of 95_test_vectors.md section 5.2. -/
def listedTable : Table := Vector.ofFn fun k => BitVec.ofNat 8 (listedSbox.getD k.val 0)

theorem entry_listedTable (x : Byte) : listedTable.entry x = BitVec.ofNat 8 (listedSbox.getD x.toNat 0) := by
  simp [listedTable, Table.entry, Vector.get_eq_getElem]

/-- The input mask is the second argument and the output mask the third. -/
theorem test_matches_listed : matchCount listedTable 0x01#8 0x01#8 = 140 ∧ matchCount listedTable 0x4D#8 0x02#8 = 112 := by
  simp only [matchCount, entry_listedTable]
  decide +kernel

/-! ### The assembler (30_encoding.md R69, R70; 95_test_vectors.md) -/

theorem test_read_command : readLine [' ', 'W', 'R', 'S', 'B', ' ', '0', 'x', '1', '0', ',', ' ', '0', 'b', '1', '1', ' ', ';', ' ', 'c'] =
    .line (.command .wrsb [0x10, 3]) := by decide
theorem test_read_directive : readLine ['.', 'w', 'o', 'r', 'd', ' ', '0', 'x', 'C', '1', '2', '3', '4'] =
    .line (.word 0xC1234) := by decide
/-- The model's choice of log entry 10: no digit separator in a number. -/
theorem test_read_separator : readLine ['G', 'F', 'I', 'N', 'V', ' ', '0', 'b', '1', '_', '0'] = .unreadable := by decide
theorem test_read_blank : readLine [';', ' ', 'x'] = .blank := by decide
theorem test_assemble : assemble (.command .wrsb [0x10, 0xAB]) = some [0x710AB#20] := by decide
theorem test_assemble_ill_formed : assemble (.command .rdsb [256]) = none := by decide
theorem test_assemble_run : assemble .run = some [0x50000#20, 0x80000#20] := by decide
theorem test_text_read_back : readLine (instrText (.gfadd 0x0A#8 0xFF#8)) = .line (.command .gfadd [10, 255]) := by decide

/-! ### States that meet the hypotheses of the statements -/

/-- The table memory that holds `f` at every index. -/
@[irreducible] def tableOf (f : Byte → Byte) : Memory := allBytes.foldl (fun t i => Memory.write t i.toNat (f i)) []

theorem read_tableOf (f : Byte → Byte) (i : Byte) : Memory.read (tableOf f) i.toNat = some (f i) := by
  rw [tableOf, (foldl_write f allBytes []).1 i, if_pos (mem_allBytes i)]

theorem wf_tableOf (f : Byte → Byte) : Memory.wf (tableOf f) := by
  have h := (foldl_write f allBytes []).2 reset_wf
  rw [tableOf]
  exact h

/-- The reset state with all entries written. -/
def fullState (f : Byte → Byte) : State := { State.reset with sbox := tableOf f }

theorem fullState_sbox (f : Byte → Byte) : (fullState f).sbox = tableOf f := rfl

theorem memRead_fullState (f : Byte → Byte) (i : Byte) : (fullState f).memRead i = some (f i) := by
  rw [State.memRead, fullState_sbox, read_tableOf]

theorem tv_fullState (f : Byte → Byte) : (fullState f).tv = true :=
  (tv_iff _).mpr fun i => (written_iff _ i).mpr ⟨_, memRead_fullState f i⟩

/-- The table 0x00 everywhere, scored: 95_test_vectors.md section 6.2 gives it score 128 and maximum bias 0. -/
def scoredState : State := (fullState fun _ => 0x00#8).setScore 0x80#8 0x00#8

theorem memRead_scoredState (i : Byte) : scoredState.memRead i = some 0x00#8 := by
  rw [scoredState, memRead_setScore, memRead_fullState]

theorem tv_scoredState : scoredState.tv = true :=
  (tv_iff _).mpr fun i => (written_iff _ i).mpr ⟨_, memRead_scoredState i⟩

theorem wf_scoredState : Memory.wf scoredState.sbox := by
  rw [scoredState, setScore_sbox, fullState_sbox]
  exact wf_tableOf _

theorem zero_table_agreements : (agreements 8 (List.replicate 256 false)).tail = List.replicate 255 128 := by
  decide +kernel

theorem maxBiasOf_zeroTable : maxBiasOf zeroTable = 0 := by
  have outputs_zero : ∀ v : Byte, outputs zeroTable v = List.replicate 256 false := by
    intro v
    rw [outputs_eq, List.eq_replicate_iff]
    refine ⟨by simp, fun b hb => ?_⟩
    obtain ⟨x, -, rfl⟩ := List.mem_map.mp hb
    simp [entry_zeroTable, dot, parity8]
  rw [maxBiasOf_eq_agreements]
  have inner : ∀ v : Byte, (agreements 8 (outputs zeroTable v)).tail.foldl (fun n c => max n (distance c)) 0 = 0 := by
    intro v
    rw [outputs_zero, zero_table_agreements]
    decide +kernel
  have outer : ∀ l : List Byte, l.foldl (fun m v =>
      (agreements 8 (outputs zeroTable v)).tail.foldl (fun n c => max n (distance c)) m) 0 = 0 := by
    intro l
    induction l with
    | nil => rfl
    | cons v l ih => rw [List.foldl_cons, inner, ih]
  exact outer _

theorem invariant_scoredState : Invariant scoredState where
  canonical := wf_scoredState
  scoreNeedsTable := fun _ => tv_scoredState
  scoreCurrent := by
    intro _ t ht
    have hz : scoredState.readTable = some zeroTable := by
      rw [readTable_of_memRead (f := fun _ => 0x00#8) memRead_scoredState, zeroTable]
    obtain rfl : zeroTable = t := Option.some.inj (hz.symm.trans ht)
    rw [maxBiasOf_zeroTable, scoredState, setScore_maxBias, setScore_score]
    decide
  noErrorNoCode := by
    rw [scoredState, setScore_es, setScore_fe, fullState]
    decide
  codes := .inl (by rw [scoredState, setScore_fe, fullState]; rfl)

/-- A state with a recorded error. -/
def errorState : State := { State.reset with es := true, fe := 0x2#4 }

theorem reset_inResetState : InResetState State.reset := ⟨fun _ => rfl, rfl, rfl, rfl⟩

theorem invariant_errorState : Invariant errorState where
  canonical := by decide
  scoreNeedsTable := by decide
  scoreCurrent := fun h => by cases h
  noErrorNoCode := by decide
  codes := .inr (.inr rfl)

/-! ### Witnesses -/

theorem witness_ADecodedWordIsTheWordOfItsCommand : decode 0x15783#20 = .ok (.gfadd 0x57#8 0x83#8) := by decide

/-- A word of each clause of `IllegalWord`, at both ends of its range, and the legal words beside them. -/
theorem witness_IllegalWord : IllegalWord 0x00000#20 ∧ IllegalWord 0xEFFFF#20 ∧ IllegalWord 0x30001#20 ∧
    IllegalWord 0x6FFFF#20 ∧ IllegalWord 0x50100#20 ∧ IllegalWord 0xF0001#20 ∧ IllegalWord 0xFFFFF#20 ∧
    ¬ IllegalWord 0x10000#20 ∧ ¬ IllegalWord 0x7FFFF#20 ∧ ¬ IllegalWord 0x6FF00#20 ∧ ¬ IllegalWord 0xF0000#20 := by
  simp +decide [IllegalWord]

theorem witness_AStepRunsTheDecodedCommand :
    (resetWith 0x710AB#20).input = .command 0x710AB#20 :: [] ∧ decode 0x710AB#20 = .ok (.wrsb 0x10#8 0xAB#8) ∧
    (resetWith 0xC1234#20).input = .command 0xC1234#20 :: [] ∧ (∀ i, decode 0xC1234#20 ≠ .ok i) ∧
    decodeTableWord 24 0x710AB = some (.wrsb 0x10#8 0xAB#8) := by
  refine ⟨rfl, by decide, rfl, fun i h => ?_, by decide⟩
  rw [show decode 0xC1234#20 = .error (.reservedOpcode 0xC#4) by decide] at h
  cases h

theorem witness_IdleAndHardReset : State.reset.input = [] ∧
    ({ errorState with input := [.hardReset, .command 0xB0000#20] } : State).input =
      .hardReset :: [.command 0xB0000#20] := by decide

theorem witness_nonzero_fields : (0x01#8 : Byte) ≠ 0x00#8 ∧ (0xFF#8 : Byte) ≠ 0x00#8 ∧
    ((0x01#8 : Byte) ≠ 0x00#8 ∨ (0x00#8 : Byte) ≠ 0x00#8) ∧ ((0x00#8 : Byte) ≠ 0x00#8 ∨ (0x01#8 : Byte) ≠ 0x00#8) := by
  decide

theorem witness_AffineMapBitByBit : (0 : Nat) < 8 ∧ (7 : Nat) < 8 := by decide

theorem witness_GenIsIdempotent : ∃ t u v : State, exec .gen State.reset = .next t ∧ exec .gen errorState = .next u ∧
    exec .gen t = .next v ∧ Memory.wf State.reset.sbox ∧ Memory.wf errorState.sbox :=
  ⟨_, _, _, exec_gen _, exec_gen _, exec_gen _, reset_wf, reset_wf⟩

theorem witness_Gen : ∃ t, InResetState State.reset ∧ exec .gen State.reset = .next t :=
  ⟨_, reset_inResetState, exec_gen _⟩

theorem witness_RdsbExamples : ∃ t u, InResetState State.reset ∧
    exec (.wrsb 0x10#8 0xAB#8) State.reset = .next t ∧ exec .gen State.reset = .next u :=
  ⟨_, _, reset_inResetState, exec_wrsb _ _ _, exec_gen _⟩

theorem witness_Rdsb : (oneEntry 0x10#8 0xAB#8).memRead 0x10#8 = some 0xAB#8 ∧
    (oneEntry 0x10#8 0xAB#8).written 0x10#8 = true ∧ (oneEntry 0x10#8 0xAB#8).written 0x11#8 = false ∧
    InResetState State.reset :=
  ⟨by decide, by decide, by decide, reset_inResetState⟩

/-- All indexes but 0xFF written. -/
theorem witness_WrsbLast : (∀ j : Byte, j ≠ 0xFF#8 →
    ({ State.reset with sbox := (allBytes.dropLast).map fun i => (i.toNat, 0x00#8) } : State).written j = true) ∧
    ({ State.reset with sbox := (allBytes.dropLast).map fun i => (i.toNat, 0x00#8) } : State).written 0xFF#8 = false := by
  decide +kernel

theorem witness_Wrsb : (0x11#8 : Byte) ≠ 0x10#8 ∧ scoredState.tv = true ∧
    ∃ t, exec (.wrsb 0xFF#8 0x01#8) scoredState = .next t :=
  ⟨by decide, tv_scoredState, _, exec_wrsb _ _ _⟩

/-- A match count below 128, at 128 and above it. -/
theorem witness_MatchCountAndBias : matchCount complementTable 0x01#8 0x01#8 < 128 ∧
    128 ≤ matchCount identityTable 0x01#8 0x02#8 ∧ 128 ≤ matchCount identityTable 0x01#8 0x01#8 := by
  rw [test_matches_complement, test_matches_identity_other, test_matches_identity_same]
  decide

theorem nodup_nonzeroMasks : nonzeroMasks.Nodup := by
  refine List.Nodup.map_on ?_ List.nodup_range'
  intro a ha b hb h
  have ha := List.mem_range'_1.mp ha
  have hb := List.mem_range'_1.mp hb
  have := congrArg BitVec.toNat h
  simp only [BitVec.toNat_ofNat] at this
  omega

/-- The mask pairs in the order v outer, u inner. -/
def allPairs : List (Byte × Byte) := nonzeroMasks ×ˢ nonzeroMasks

theorem witness_TheSearchDoesNotDependOnOrderOrLanes :
    allPairs.Nodup ∧ (∀ p : Byte × Byte, p ∈ allPairs ↔ p.1 ≠ 0x00#8 ∧ p.2 ≠ 0x00#8) ∧
    [allPairs, []].flatten.Nodup ∧
    (∀ p : Byte × Byte, p ∈ [allPairs, []].flatten ↔ p.1 ≠ 0x00#8 ∧ p.2 ≠ 0x00#8) := by
  have nd : allPairs.Nodup := nodup_nonzeroMasks.product nodup_nonzeroMasks
  have mem : ∀ p : Byte × Byte, p ∈ allPairs ↔ p.1 ≠ 0x00#8 ∧ p.2 ≠ 0x00#8 := by
    intro p
    rw [allPairs, ← mem_nonzeroMasks, ← mem_nonzeroMasks, ← List.mem_product]
  have flat : [allPairs, []].flatten = allPairs := by rw [List.flatten_cons, List.flatten_singleton, List.append_nil]
  rw [flat]
  exact ⟨nd, mem, nd, mem⟩

theorem witness_ConstantAndIdentityTables : (∀ x : Byte, zeroTable.entry x = 0x00#8) ∧
    (∀ x : Byte, identityTable.entry x = x) :=
  ⟨entry_zeroTable, entry_identityTable⟩

theorem witness_Nla : (fullState (fun x => x)).tv = true ∧ (oneEntry 0xFF#8 0x00#8).tv = false :=
  ⟨tv_fullState _, Bool.eq_false_iff.mpr fun h => by
    have := (tv_iff _).mp h 0x00#8
    revert this
    decide⟩

theorem witness_RdscAndRdmb : scoredState.sv = true ∧ State.reset.sv = false :=
  ⟨setScore_sv _ _ _, rfl⟩

theorem witness_ScoreAndMaximumBiasReadOut : Invariant scoredState ∧ scoredState.sv = true :=
  ⟨invariant_scoredState, setScore_sv _ _ _⟩

theorem witness_StatusByte : Invariant errorState ∧ Invariant scoredState ∧ scoredState.sv = true :=
  ⟨invariant_errorState, invariant_scoredState, setScore_sv _ _ _⟩

theorem witness_Rdst : ∃ t, exec .rdst errorState = .next t ∧ InResetState State.reset :=
  ⟨_, exec_rdst _, reset_inResetState⟩

theorem witness_TheResetState : ∃ t, exec .srst errorState = .next t ∧ InResetState State.reset :=
  ⟨_, exec_srst _, reset_inResetState⟩

/-- The first error, a second error, an answer of a command that is not SRST, and SRST. -/
theorem witness_errors :
    (perform 0x00000#20 State.reset = .next (State.reset.raise .illegal) ∧
      (State.reset.raise .illegal).rsp = some 0x100#12 ∧ rspEcode 0x100#12 ≠ 0x0#4 ∧ State.reset.es = false) ∧
    (perform 0x61000#20 errorState = .next (errorState.raise .notReady) ∧
      (errorState.raise .notReady).rsp = some 0x200#12 ∧ rspEcode 0x200#12 ≠ 0x0#4 ∧ errorState.es = true) ∧
    (perform 0x1AA55#20 errorState = .next (errorState.respond 0xFF#8) ∧
      (errorState.respond 0xFF#8).rsp = some 0x0FF#12 ∧ rspEcode 0x0FF#12 = 0x0#4 ∧
      decode 0x1AA55#20 = .ok (.gfadd 0xAA#8 0x55#8)) ∧
    decode 0xF0000#20 = .ok .srst := by
  refine ⟨⟨?_, by decide, by decide, rfl⟩, ⟨?_, by decide, by decide, rfl⟩, ⟨?_, by decide, by decide, by decide⟩, by decide⟩
  · exact perform_error (e := .reservedOpcode 0x0#4) _ (by decide)
  · exact (perform_ok (i := .rdsb 0x10#8) _ (by decide)).trans (exec_rdsb_none rfl)
  · exact (perform_ok (i := .gfadd 0xAA#8 0x55#8) _ (by decide)).trans (by rw [exec_gfadd]; rfl)

theorem witness_EachError : InResetState State.reset := reset_inResetState

/-- A written bit kept, one set by WRSB, and one lost by hard reset. -/
theorem witness_WrittenBits :
    (∃ t, step ((oneEntry 0x10#8 0xAB#8).presentWord 0x711CD#20) = .next t ∧ t.written 0x10#8 = true ∧
      t.written 0x11#8 = true ∧ ¬ nextActionResets ((oneEntry 0x10#8 0xAB#8).presentWord 0x711CD#20)) ∧
    nextActionResets { oneEntry 0x10#8 0xAB#8 with input := [.hardReset] } ∧
    nextActionResets ((oneEntry 0x10#8 0xAB#8).presentWord 0xF0000#20) ∧
    (oneEntry 0x10#8 0xAB#8).written 0x00#8 = false := by
  refine ⟨⟨_, rfl, by decide, by decide, ?_⟩, ⟨[], .inl rfl⟩, ⟨[], .inr rfl⟩, by decide⟩
  rintro ⟨rest, h | h⟩ <;> simp [State.presentWord] at h

theorem witness_OnlyTheNamedCommands : ∃ t u v : State, exec (.gfadd 0x57#8 0x83#8) scoredState = .next t ∧
    exec (.wrsb 0x00#8 0x00#8) scoredState = .next u ∧ exec .srst scoredState = .next v ∧ t.sv = true ∧
    ¬ NotReadyFor (.gfadd 0x57#8 0x83#8) scoredState :=
  ⟨_, _, _, exec_gfadd _ _ _, exec_wrsb _ _ _, exec_srst _,
    (respond_sv _ _).trans (setScore_sv _ _ _), id⟩

/-- NLA on a complete table, and on an incomplete one while `SV` = 1 (a state that no run reaches). -/
theorem witness_OnlyTheNamedCommandsNla :
    (∃ t, exec .nla scoredState = .next t ∧ scoredState.tv = true) ∧
    (∃ t, exec .nla { State.reset with sv := true } = .next t) ∧
    ({ State.reset with sv := true } : State).tv = false := by
  have unread : ({ State.reset with sv := true } : State).readTable = none := by
    rw [readTable_none_iff, Bool.eq_false_iff]
    intro h
    have := (tv_iff _).mp h 0x00#8
    revert this
    decide
  obtain ⟨tab, ht⟩ := (readTable_some_iff scoredState).mpr tv_scoredState
  exact ⟨⟨_, exec_nla_some ht, tv_scoredState⟩, ⟨_, exec_nla_none unread⟩, (readTable_none_iff _).mp unread⟩

theorem witness_EveryStepKeepsTheInvariant :
    let s := { scoredState with input := [.command 0x90000#20] }
    Invariant s ∧ ¬ nextActionResets s ∧ s.written 0xFF#8 = true ∧ ∃ t, step s = .next t := by
  have hi := invariant_scoredState
  refine ⟨⟨hi.canonical, hi.scoreNeedsTable, hi.scoreCurrent, hi.noErrorNoCode, hi.codes⟩, ?_, ?_, ?_⟩
  · rintro ⟨rest, h | h⟩ <;> simp at h
  · exact (written_iff _ _).mpr ⟨_, memRead_scoredState 0xFF#8⟩
  · exact ⟨_, (step_command rfl).trans ((perform_ok (i := .rdsc) _ (by decide)).trans (exec_rdsc_valid rfl))⟩

theorem witness_Indistinguishable : Indistinguishable State.reset { State.reset with score := 0x70#8, maxBias := 0xFF#8 } :=
  ⟨fun _ => rfl, rfl, rfl, rfl, fun h => (by cases h), fun h => (by cases h), rfl⟩

/-- A host that presents GFADD, and one that presents nothing. -/
def presents : PortIn := { rst := false, cmdValid := true, cmd := 0x15783#20 }

/-- No command, no reset. -/
def quiet : PortIn := { rst := false, cmdValid := false, cmd := 0x00000#20 }

theorem witness_AnAcceptedCommand : accepts presents Port.reset = true ∧
    (∀ j ∈ List.replicate (Config.latency Port.reset.draws) quiet, j.rst = false) ∧
    (List.replicate (Config.latency Port.reset.draws) quiet).length = Config.latency Port.reset.draws :=
  ⟨by decide, fun j hj => by rw [List.eq_of_mem_replicate hj]; rfl, List.length_replicate⟩

theorem witness_TheResponse :
    let p : Port := { Port.reset with phase := .responding }
    rspValid quiet p = true ∧ p.phase = .responding ∧
    (∀ j ∈ List.replicate (Config.readyDelay p.draws + 1) quiet, j.rst = false) ∧
    (List.replicate (Config.readyDelay p.draws + 1) quiet).length = Config.readyDelay p.draws + 1 ∧
    Port.reset.phase = .ready ∧ quiet.rst = false ∧ quiet.cmdValid = false :=
  ⟨by decide, rfl, fun j hj => by rw [List.eq_of_mem_replicate hj]; rfl, List.length_replicate, rfl, rfl, rfl⟩

theorem witness_HardReset :
    let p : Port := { Port.reset with phase := .busy 0x50000#20 3 }
    let i : PortIn := { presents with rst := true }
    i.rst = true ∧ [i] ≠ [] ∧ (∀ j ∈ [i], j.rst = true) ∧ (∃ q, clockEdge i p = .next q) ∧
    presents.rst = false ∧ presents.cmdValid = true :=
  ⟨rfl, by simp, by simp, ⟨_, rfl⟩, rfl, rfl⟩

/-- What the host owes (R74): a waiting word that it changes, one that it keeps, and one that it withdraws (log entry 7). -/
theorem test_hostHolds :
    let p : Port := { Port.reset with phase := .busy 0x50000#20 3 }
    hostHolds presents { presents with cmd := 0x00000#20 } p = false ∧ hostHolds presents presents p = true ∧
      hostHolds presents quiet p = true := by decide

theorem witness_Assembler : ∃ ws, assemble (.command .gfinv [83]) = some ws ∧ 0x35300#20 ∈ ws ∧
    ∀ n, AsmLine.command .gfinv [83] ≠ .word n :=
  ⟨[0x35300#20], by decide, by decide, fun n h => by cases h⟩

end Sys2Proof.Machine
end

section
/-! The facts about the decoder, the response word and the effect of a command that the statements about the state
(10_state.md) rest on. -/

namespace Sys2Proof

theorem fieldsOfInstr_of_needZeroB {c : Cmd20} {i j : Instr} (h : needZeroB c i = .ok j)
    (hi : c.b = 0x00#8 → fieldsOfInstr i = c) : fieldsOfInstr j = c := by
  unfold needZeroB at h
  split at h
  · next hb =>
    cases h
    exact hi hb
  · cases h

theorem fieldsOfInstr_of_needZeroAB {c : Cmd20} {i j : Instr} (h : needZeroAB c i = .ok j)
    (hi : c.a = 0x00#8 → c.b = 0x00#8 → fieldsOfInstr i = c) : fieldsOfInstr j = c := by
  unfold needZeroAB at h
  split at h
  · next ha => exact fieldsOfInstr_of_needZeroB h (hi ha)
  · cases h

/-- The decoder drops no field: what it accepts are the fields of the command it answers (R61 to R65). -/
theorem fieldsOfInstr_of_decodeFields {c : Cmd20} {i : Instr} (h : decodeFields c = .ok i) :
    fieldsOfInstr i = c := by
  obtain ⟨op, a, b⟩ := c
  unfold decodeFields at h
  split at h
  case h_1 | h_2 | h_7 => cases h; simp_all [fieldsOfInstr]
  case h_3 | h_4 | h_6 => exact fieldsOfInstr_of_needZeroB h fun hb => by simp_all [fieldsOfInstr]
  case h_13 => cases h
  all_goals exact fieldsOfInstr_of_needZeroAB h fun ha hb => by simp_all [fieldsOfInstr]

theorem encode_of_decode {w : CmdWord} {i : Instr} (h : decode w = .ok i) : encode i = w := by
  rw [encode, fieldsOfInstr_of_decodeFields h, toWord_fieldsOf]

/-- SRST has one word (R63). -/
theorem decode_eq_srst_iff (w : CmdWord) : decode w = .ok .srst ↔ w = 0xF0000#20 :=
  ⟨fun h => (encode_of_decode h).symm, fun h => by subst h; decide⟩

end Sys2Proof

namespace Sys2Proof.Machine

@[simp] theorem rspEcode_rspWord (c : Nibble) (d : Byte) : rspEcode (rspWord c d) = c :=
  BitVec.extractLsb'_append_eq_left

theorem code_ne_zero (e : CmdError) : e.code ≠ 0x0#4 := by
  cases e <;> decide

/-- The inversion of `perform`: an illegal word raises Illegal, and a legal one has an effect of its command. -/
theorem perform_cases {w : CmdWord} {s t : State} (h : perform w s = .next t) :
    (∃ e, decode w = .error e ∧ t = s.raise .illegal) ∨ (∃ i, decode w = .ok i ∧ Effect i s t) := by
  cases hd : decode w with
  | error e =>
    rw [perform_error s hd] at h
    cases h
    exact .inl ⟨e, rfl, rfl⟩
  | ok i =>
    rw [perform_ok s hd] at h
    exact .inr ⟨i, rfl, effect_of_exec h⟩

end Sys2Proof.Machine
end

section
/-! The sticky error (10_state.md R24): what one command does to `ES` and `FE`. -/

namespace Sys2Proof.Machine

/-- What a command can do to `ES`, `FE` and the response: it takes an error, which SRST never does; it is SRST; or it
answers and leaves both flags alone. -/
inductive ErrorFlags (isSrst : Prop) (s t : State) : Prop where
  /-- an error is taken -/
  | error (e : CmdError) (notSrst : ¬ isSrst) (raised : t = s.raise e)
  /-- SRST clears both -/
  | cleared (srst : isSrst) (rsp : t.rsp = some (rspWord 0x0#4 0x00#8)) (es : t.es = false) (fe : t.fe = 0x0#4)
  /-- an answer that keeps both -/
  | kept (d : Byte) (notSrst : ¬ isSrst) (rsp : t.rsp = some (rspWord 0x0#4 d)) (es : t.es = s.es) (fe : t.fe = s.fe)

theorem Effect.errorFlags {i : Instr} {s t : State} (h : Effect i s t) : ErrorFlags (i = .srst) s t := by
  cases h with
  | answer d quiet _ =>
    have notSrst : i ≠ .srst := by rintro rfl; cases quiet
    exact .kept d notSrst rfl rfl rfl
  | notReady unready =>
    have notSrst : i ≠ .srst := by rintro rfl; exact unready
    exact .error .notReady notSrst rfl
  | gen h => exact .kept _ (by simp [h]) rfl rfl rfl
  | wrsb j v h => exact .kept _ (by simp [h]) rfl rfl rfl
  | nla t h _ => exact .kept _ (by simp [h]) rfl rfl rfl
  | srst h => exact .cleared h rfl rfl rfl

theorem perform_errorFlags {w : CmdWord} {s t : State} (h : perform w s = .next t) :
    ErrorFlags (decode w = .ok .srst) s t := by
  rcases perform_cases h with ⟨e, hd, ht⟩ | ⟨i, hd, he⟩
  · exact .error .illegal (by simp [hd]) ht
  · simpa [hd] using he.errorFlags

/-- Settles O41: each of the three `ErrorFlags` a command can have is one clause of R24, and excludes the other two. -/
theorem theStickyErrorKeepsTheFirstCode : Obligations.TheStickyErrorKeepsTheFirstCode := by
  refine ⟨rfl, rfl, fun s => ⟨rfl, rfl⟩, ?_, fun s hs => hs.noErrorNoCode⟩
  intro w s t r hp hr
  cases perform_errorFlags hp with
  | error e notSrst raised =>
    subst raised
    obtain rfl : rspWord e.code 0x00#8 = r := Option.some.inj hr
    simp [notSrst, code_ne_zero]
  | cleared srst rsp es fe =>
    obtain rfl := Option.some.inj (rsp.symm.trans hr)
    simp [srst, es, fe]
  | kept d notSrst rsp es fe =>
    obtain rfl := Option.some.inj (rsp.symm.trans hr)
    simp [notSrst, es, fe]

end Sys2Proof.Machine
end

section
/-! The written bits (10_state.md R22): what one command, and one step, does to each of them. -/

namespace Sys2Proof.Machine

theorem written_eq_false_iff (s : State) (i : Byte) : s.written i = false ↔ s.memRead i = none := by
  simp [State.written]

@[simp] theorem written_respond (s : State) (d i : Byte) : (s.respond d).written i = s.written i :=
  written_congr (respond_sbox s d) i
@[simp] theorem written_raise (s : State) (e : CmdError) (i : Byte) : (s.raise e).written i = s.written i :=
  written_congr (raise_sbox s e) i
@[simp] theorem written_clearSv (s : State) (i : Byte) : s.clearSv.written i = s.written i :=
  written_congr (clearSv_sbox s) i
@[simp] theorem written_setScore (s : State) (c m i : Byte) : (s.setScore c m).written i = s.written i :=
  written_congr (setScore_sbox s c m) i
@[simp] theorem written_idle (s : State) (i : Byte) : s.idle.written i = s.written i :=
  written_congr (idle_sbox s) i
@[simp] theorem written_popInput (s : State) (i : Byte) : s.popInput.written i = s.written i :=
  written_congr (popInput_sbox s) i
@[simp] theorem written_enterReset (s : State) (i : Byte) : s.enterReset.written i = false := rfl
@[simp] theorem written_hardReset (s : State) (i : Byte) : s.hardReset.written i = false := rfl
@[simp] theorem written_genTable (s : State) (i : Byte) : s.genTable.written i = true :=
  (tv_iff _).mp (tv_genTable s) i

@[simp] theorem written_memWrite (s : State) (j v i : Byte) :
    (s.memWrite j v).written i = true ↔ s.written i = true ∨ j = i := by
  by_cases h : j = i
  · subst h
    simp [State.written]
  · simp [State.written, memRead_memWrite_other s v (Ne.symm h), h]

/-- What RDSB needs is one written bit, and what NLA needs is all of them. -/
theorem exec_reader_of_unwritten {s : State} {i : Byte} (h : s.written i = false) {j : Instr}
    (hj : j ∈ [Instr.rdsb i, .nla]) : exec j s = .next (s.raise .notReady) := by
  simp only [List.mem_cons, List.not_mem_nil, or_false] at hj
  rcases hj with rfl | rfl
  · exact exec_rdsb_none ((written_eq_false_iff s i).mp h)
  · have incomplete : s.tv = false := by
      rw [← Bool.not_eq_true, tv_iff]
      intro hall
      simp [hall i] at h
    exact exec_nla_none ((readTable_none_iff s).mpr incomplete)

/-- A command that is none of GEN, WRSB and SRST need only keep the bit. -/
theorem written_iff_of_kept {i : Instr} {s t : State} {k : Byte} (kept : t.written k = s.written k)
    (hsrst : i ≠ .srst) (hgen : i ≠ .gen) (hwrsb : ∀ v, i ≠ .wrsb k v) :
    t.written k = true ↔ i ≠ .srst ∧ (s.written k = true ∨ i = .gen ∨ ∃ v, i = .wrsb k v) := by
  simp [kept, hsrst, hgen, hwrsb]

/-- What a command does to a written bit: only SRST clears it, only GEN and WRSB of its index set it. -/
theorem Effect.written_iff {i : Instr} {s t : State} (h : Effect i s t) (k : Byte) :
    t.written k = true ↔ i ≠ .srst ∧ (s.written k = true ∨ i = .gen ∨ ∃ v, i = .wrsb k v) := by
  cases h with
  | answer d quiet _ =>
    refine written_iff_of_kept (written_respond s d k) ?_ ?_ (fun v => ?_)
    all_goals rintro rfl; cases quiet
  | notReady unready =>
    refine written_iff_of_kept (written_raise s _ k) ?_ ?_ (fun v => ?_)
    all_goals rintro rfl; exact unready
  | gen h => simp [h]
  | wrsb j v h => simp [h]
  | nla t h _ => exact written_iff_of_kept (by simp) (by simp [h]) (by simp [h]) (by simp [h])
  | srst h => simp [h]

theorem nextActionResets_command_iff {s : State} {w : CmdWord} {rest : List HostAction}
    (h : s.input = .command w :: rest) : nextActionResets s ↔ decode w = .ok .srst := by
  simp [nextActionResets, h, decode_eq_srst_iff]

/-- One step's effect on a written bit (R22), action by action. -/
theorem step_written_iff {s t : State} (h : step s = .next t) (k : Byte) :
    t.written k = true ↔ ¬ nextActionResets s ∧
      (s.written k = true ∨ ∃ w rest, s.input = .command w :: rest ∧
        (decode w = .ok .gen ∨ ∃ v, decode w = .ok (.wrsb k v))) := by
  rcases step_cases h with ⟨hin, rfl⟩ | ⟨rest, hin, rfl⟩ | ⟨w, rest, e, hin, hd, rfl⟩ | ⟨w, rest, i, hin, hd, he⟩
  · simp [nextActionResets, hin]
  · simp [nextActionResets, hin]
  · simp [nextActionResets_command_iff hin, hin, hd]
  · simp [he.written_iff k, nextActionResets_command_iff hin, hin, hd]

/-- Settles O42: the clauses are R22's sentences in order, the last one by cases on the host's next action. -/
theorem writtenBitsAreSetByWritesAndClearedByResetOnly :
    Obligations.WrittenBitsAreSetByWritesAndClearedByResetOnly := by
  refine ⟨tv_iff, written_eq_false_iff, ?_, fun s t i h => step_written_iff h i⟩
  intro s i h j hj
  exact ⟨_, exec_reader_of_unwritten h hj, rfl⟩

end Sys2Proof.Machine
end

section
/-! The legal words (30_encoding.md R63 to R65): the rule's own words, the well-formedness check, the decoder and the
opcode table agree on them, because all four sort the opcodes into the same families by the fields they mark MBZ. -/

namespace Sys2Proof

/-- The reserved opcodes, and the commands with two operands, with field `b` MBZ, and with both fields MBZ (R63, R64). -/
theorem opcode_families (op : Nibble) :
    op ∈ [0x0#4, 0xC#4, 0xD#4, 0xE#4] ∨ op ∈ [0x1#4, 0x2#4, 0x7#4] ∨ op ∈ [0x3#4, 0x4#4, 0x6#4] ∨
      op ∈ [0x5#4, 0x8#4, 0x9#4, 0xA#4, 0xB#4, 0xF#4] := by
  decide +revert

/-- The same families read off the columns `match` and `mask`: a mask covers the opcode and the MBZ fields. -/
theorem row_families : ∀ r ∈ opTable,
    ((fieldsOf r.pattern).op ∈ [0x1#4, 0x2#4, 0x7#4] ∧ fieldsOf r.mask = ⟨0xF#4, 0x00#8, 0x00#8⟩) ∨
    ((fieldsOf r.pattern).op ∈ [0x3#4, 0x4#4, 0x6#4] ∧ (fieldsOf r.pattern).b = 0x00#8 ∧
      fieldsOf r.mask = ⟨0xF#4, 0x00#8, 0xFF#8⟩) ∨
    ((fieldsOf r.pattern).op ∈ [0x5#4, 0x8#4, 0x9#4, 0xA#4, 0xB#4, 0xF#4] ∧ (fieldsOf r.pattern).a = 0x00#8 ∧
      (fieldsOf r.pattern).b = 0x00#8 ∧ fieldsOf r.mask = ⟨0xF#4, 0xFF#8, 0xFF#8⟩) := by
  decide

theorem rows_differ_in_opcode :
    ∀ r ∈ opTable, ∀ q ∈ opTable, (fieldsOf r.pattern).op = (fieldsOf q.pattern).op → r = q := by
  decide

theorem fieldsOf_and (w m : CmdWord) : fieldsOf (w &&& m) =
    ⟨(fieldsOf w).op &&& (fieldsOf m).op, (fieldsOf w).a &&& (fieldsOf m).a, (fieldsOf w).b &&& (fieldsOf m).b⟩ := by
  simp [fieldsOf, BitVec.extractLsb'_and]

/-- What a row asks of a word, field by field. -/
theorem fields_of_accepts {r : OpRow} {w : CmdWord} (h : r.accepts w = true) :
    (fieldsOf w).op &&& (fieldsOf r.mask).op = (fieldsOf r.pattern).op ∧
    (fieldsOf w).a &&& (fieldsOf r.mask).a = (fieldsOf r.pattern).a ∧
    (fieldsOf w).b &&& (fieldsOf r.mask).b = (fieldsOf r.pattern).b := by
  rw [OpRow.accepts, beq_iff_eq] at h
  simp [← h, fieldsOf_and]

theorem op_of_accepts {r : OpRow} (hr : r ∈ opTable) {w : CmdWord} (h : r.accepts w = true) :
    (fieldsOf w).op = (fieldsOf r.pattern).op := by
  have covered : (fieldsOf r.mask).op = BitVec.allOnes 4 := by
    rcases row_families r hr with ⟨_, hm⟩ | ⟨_, _, hm⟩ | ⟨_, _, _, hm⟩ <;> rw [hm] <;> rfl
  obtain ⟨hop, -, -⟩ := fields_of_accepts h
  rwa [covered, BitVec.and_allOnes] at hop

/-- At most one row accepts a word, since a row fixes the opcode. -/
theorem row_unique {r q : OpRow} (hr : r ∈ opTable) (hq : q ∈ opTable) {w : CmdWord} (h : r.accepts w = true)
    (h' : q.accepts w = true) : q = r :=
  rows_differ_in_opcode q hq r hr ((op_of_accepts hq h').symm.trans (op_of_accepts hr h))

theorem wf_of_twoOperands {c : Cmd20} (h : c.op ∈ [0x1#4, 0x2#4, 0x7#4]) : c.wf = true := by
  obtain ⟨op, a, b⟩ := c
  simp only [List.mem_cons, List.not_mem_nil, or_false] at h
  rcases h with rfl | rfl | rfl <;> rfl

theorem wf_of_zeroB {c : Cmd20} (h : c.op ∈ [0x3#4, 0x4#4, 0x6#4]) : c.wf = (c.b == 0x00#8) := by
  obtain ⟨op, a, b⟩ := c
  simp only [List.mem_cons, List.not_mem_nil, or_false] at h
  rcases h with rfl | rfl | rfl <;> rfl

theorem wf_of_zeroAB {c : Cmd20} (h : c.op ∈ [0x5#4, 0x8#4, 0x9#4, 0xA#4, 0xB#4, 0xF#4]) :
    c.wf = (c.a == 0x00#8 && c.b == 0x00#8) := by
  obtain ⟨op, a, b⟩ := c
  simp only [List.mem_cons, List.not_mem_nil, or_false] at h
  rcases h with rfl | rfl | rfl | rfl | rfl | rfl <;> rfl

/-- R64 in its own words is the check's answer no. -/
theorem illegalWord_iff_wf (w : CmdWord) : Machine.IllegalWord w ↔ (fieldsOf w).wf = false := by
  show (fieldsOf w).op ∈ [0x0#4, 0xC#4, 0xD#4, 0xE#4] ∨
    ((fieldsOf w).op ∈ [0x3#4, 0x4#4, 0x6#4] ∧ (fieldsOf w).b ≠ 0x00#8) ∨
    ((fieldsOf w).op ∈ [0x5#4, 0x8#4, 0x9#4, 0xA#4, 0xB#4, 0xF#4] ∧
      ((fieldsOf w).a ≠ 0x00#8 ∨ (fieldsOf w).b ≠ 0x00#8)) ↔ _
  obtain ⟨op, a, b⟩ := fieldsOf w
  have families := opcode_families op
  simp only [List.mem_cons, List.not_mem_nil, or_false] at families
  rcases families with (rfl | rfl | rfl | rfl) | (rfl | rfl | rfl) | (rfl | rfl | rfl) |
    (rfl | rfl | rfl | rfl | rfl | rfl)
  all_goals simp [Cmd20.wf, ← not_and_or]

theorem zero_of_covered {x : Byte} (h : x &&& 0xFF#8 = 0x00#8) : x = 0x00#8 :=
  BitVec.and_allOnes.symm.trans h

/-- A row fixes the opcode and its MBZ fields, so it accepts legal words only. -/
theorem wf_of_accepts {r : OpRow} (hr : r ∈ opTable) {w : CmdWord} (h : r.accepts w = true) :
    (fieldsOf w).wf = true := by
  have hop := op_of_accepts hr h
  obtain ⟨-, ha, hb⟩ := fields_of_accepts h
  rcases row_families r hr with ⟨hp, -⟩ | ⟨hp, pb, hm⟩ | ⟨hp, pa, pb, hm⟩
  · exact wf_of_twoOperands (hop ▸ hp)
  · rw [hm, pb] at hb
    rw [wf_of_zeroB (hop ▸ hp), zero_of_covered hb]
    rfl
  · rw [hm, pa] at ha
    rw [hm, pb] at hb
    rw [wf_of_zeroAB (hop ▸ hp), zero_of_covered ha, zero_of_covered hb]
    rfl

/-- The check and the decoder list the same opcodes and ask for the same zero fields. -/
theorem decodeFields_of_wf {c : Cmd20} (h : c.wf = true) : ∃ i, decodeFields c = .ok i := by
  obtain ⟨op, a, b⟩ := c
  unfold Cmd20.wf at h
  split at h
  case h_1 | h_2 | h_3 => simp_all [decodeFields]
  case h_4 | h_5 | h_6 => simp_all [decodeFields, needZeroB]
  case h_13 => cases h
  all_goals simp_all [decodeFields, needZeroAB, needZeroB]

theorem wordOfRow (i : Instr) : Laws.WordOfRow.Statement i := by
  cases i with
  | gfadd a b => exact Laws.WordOfRow.gfadd a b
  | gfmul a b => exact Laws.WordOfRow.gfmul a b
  | gfinv a => exact Laws.WordOfRow.gfinv a
  | affine a => exact Laws.WordOfRow.affine a
  | gen => exact Laws.WordOfRow.gen
  | rdsb j => exact Laws.WordOfRow.rdsb j
  | wrsb j v => exact Laws.WordOfRow.wrsb j v
  | nla => exact Laws.WordOfRow.nla
  | rdsc => exact Laws.WordOfRow.rdsc
  | rdmb => exact Laws.WordOfRow.rdmb
  | rdst => exact Laws.WordOfRow.rdst
  | srst => exact Laws.WordOfRow.srst

/-- A word that decodes is accepted by its command's row. -/
theorem row_of_decode {w : CmdWord} {i : Instr} (h : decode w = .ok i) :
    ∃ r ∈ opTable, r.mnemonic = i.mnemonic ∧ r.accepts w = true := by
  obtain ⟨row, -⟩ := wordOfRow i
  rwa [encode_of_decode h] at row

theorem decode_iff_wf (w : CmdWord) : (∃ i, decode w = .ok i) ↔ (fieldsOf w).wf = true := by
  refine ⟨fun ⟨i, h⟩ => ?_, decodeFields_of_wf⟩
  obtain ⟨-, legal⟩ := wordOfRow i
  rwa [encode_of_decode h] at legal

theorem accepted_iff_wf (w : CmdWord) : (∃ r ∈ opTable, r.accepts w = true) ↔ (fieldsOf w).wf = true := by
  refine ⟨fun ⟨r, hr, h⟩ => wf_of_accepts hr h, fun h => ?_⟩
  obtain ⟨i, hd⟩ := (decode_iff_wf w).mpr h
  obtain ⟨r, hr, -, hacc⟩ := row_of_decode hd
  exact ⟨r, hr, hacc⟩

theorem not_accepted_iff_wf (w : CmdWord) :
    (∀ r ∈ opTable, r.accepts w = false) ↔ (fieldsOf w).wf = false := by
  simpa using not_congr (accepted_iff_wf w)

end Sys2Proof

namespace Sys2Proof.Machine

theorem perform_illegal {w : CmdWord} (h : (fieldsOf w).wf = false) (s : State) :
    perform w s = .next (s.raise .illegal) := by
  cases hd : decode w with
  | error e => exact perform_error s hd
  | ok i => simp [(decode_iff_wf w).mp ⟨i, hd⟩] at h

/-- Settles O3: each of the three descriptions says that the word's fields are ill formed, and such a word does not
decode, so `State.raise` is its whole effect. -/
theorem illegalWordsRaiseIllegalAndChangeNothingElse :
    Obligations.IllegalWordsRaiseIllegalAndChangeNothingElse := by
  refine ⟨fun w => ?_, fun w => ?_, illegalWord_iff_wf, fun w s h => ?_, ?_⟩
  · rw [illegalWord_iff_wf]
    simpa using (not_congr (decode_iff_wf w)).symm
  · rw [illegalWord_iff_wf, not_accepted_iff_wf]
  · exact ⟨_, perform_illegal ((illegalWord_iff_wf w).mp h) s, errorEffect_raise s .illegal, rfl⟩
  · exact (illegalWord_iff_wf _).mpr rfl

/-- Settles O4: a word decodes exactly when a row accepts it, and the row of its command is then the only one. -/
theorem decodingIsTotalAndFindsTheOneMatchingRow : Obligations.DecodingIsTotalAndFindsTheOneMatchingRow := by
  intro w
  cases hwf : (fieldsOf w).wf with
  | false => exact .inl ⟨(not_accepted_iff_wf w).mpr hwf, perform_illegal hwf⟩
  | true =>
    obtain ⟨i, hd⟩ := (decode_iff_wf w).mpr hwf
    obtain ⟨r, hr, hm, hacc⟩ := row_of_decode hd
    exact .inr ⟨r, hr, hacc, fun q hq hq' => row_unique hr hq hacc hq', i, hd, hm.symm,
      fieldsOfInstr_of_decodeFields hd, fun s => perform_ok s hd⟩

end Sys2Proof.Machine
end

section
/-! The word of a command as a number (30_encoding.md R61), and the commands that only answer. -/

namespace Sys2Proof

/-- `{op, a, b}` as a number. -/
theorem toWord_eq_ofNat (c : Cmd20) :
    c.toWord = BitVec.ofNat 20 (c.op.toNat * 0x10000 + c.a.toNat * 256 + c.b.toNat) := by
  have value : (c.op ++ c.a ++ c.b).toNat = (c.op.toNat * 2 ^ 8 + c.a.toNat) * 2 ^ 8 + c.b.toNat := by
    rw [BitVec.toNat_append, BitVec.toNat_append, ← Nat.shiftLeft_add_eq_or_of_lt c.a.isLt,
      ← Nat.shiftLeft_add_eq_or_of_lt c.b.isLt, Nat.shiftLeft_eq, Nat.shiftLeft_eq]
  apply BitVec.eq_of_toNat_eq
  rw [Cmd20.toWord, value, BitVec.toNat_ofNat]
  omega

end Sys2Proof

namespace Sys2Proof.Machine

theorem answersOnly_of_respond {i : Instr} {s : State} {d : Byte} (h : exec i s = .next (s.respond d)) :
    AnswersOnly i s d :=
  ⟨_, h, rfl, unchanged_respond s d⟩

theorem perform_answer {w : CmdWord} {i : Instr} {s : State} {d : Byte} (hd : decode w = .ok i)
    (h : AnswersOnly i s d) : ∃ t, perform w s = .next t ∧ t.rsp = some (rspWord 0x0#4 d) := by
  obtain ⟨t, ht, hrsp, -⟩ := h
  exact ⟨t, (perform_ok s hd).trans ht, hrsp⟩

end Sys2Proof.Machine
end

section
/-! Addition in Unit FA (40_field_arithmetic.md R80, R81, R84). -/

namespace Sys2Proof.Machine

@[simp] theorem gfAdd_zero (a : Byte) : gfAdd a 0x00#8 = a := BitVec.xor_zero
@[simp] theorem gfAdd_self (a : Byte) : gfAdd a a = 0x00#8 := BitVec.xor_self

theorem gfAdd_comm (a b : Byte) : gfAdd a b = gfAdd b a := BitVec.xor_comm a b
theorem gfAdd_assoc (a b c : Byte) : gfAdd (gfAdd a b) c = gfAdd a (gfAdd b c) := BitVec.xor_assoc a b c

/-- Subtraction is addition. -/
theorem gfAdd_gfAdd_cancel (a b : Byte) : gfAdd (gfAdd a b) b = a := by
  rw [gfAdd_assoc, gfAdd_self, gfAdd_zero]

/-- Settles O11: the laws of exclusive or, bit by bit. -/
theorem fieldAdditionLaws : Obligations.FieldAdditionLaws := fun a b c =>
  ⟨gfAdd_comm a b, gfAdd_assoc a b c, gfAdd_self a, gfAdd_zero a, gfAdd_gfAdd_cancel a b⟩

theorem encode_gfadd (a b : Byte) :
    encode (.gfadd a b) = BitVec.ofNat 20 (0x10000 + a.toNat * 256 + b.toNat) := by
  rw [encode, fieldsOfInstr, toWord_eq_ofNat, show (0x1#4).toNat = 1 from rfl, Nat.one_mul]

theorem answersOnly_gfadd (a b : Byte) (s : State) : AnswersOnly (.gfadd a b) s (gfAdd a b) :=
  answersOnly_of_respond (exec_gfadd a b s)

/-- Settles O10: the corner cases are the laws of `gfAdd` at 0 and at equal operands. -/
theorem gfaddAnswersTheXorAndWritesNothing : Obligations.GfaddAnswersTheXorAndWritesNothing := by
  refine ⟨encode_gfadd, answersOnly_gfadd, fun a s => ⟨?_, ?_⟩, fun s => ?_⟩
  · simpa using answersOnly_gfadd a 0x00#8 s
  · simpa using answersOnly_gfadd a a s
  · exact perform_answer (by decide) (answersOnly_gfadd 0x57#8 0x83#8 s)

end Sys2Proof.Machine
end

section
/-! Unit FA (40_field_arithmetic.md R82, R86): the reduction of R86 adds up over the summands of a carry-less product
and turns a shift by one into the multiplier's `mulReduce`, so both definitions of the product are one sum. -/

namespace Sys2Proof.Machine

/-- The loop of R82 as one sum: over the set bits i of `q`, `p` shifted and reduced i times. -/
theorem mulLoop_eq_foldl (k : Nat) (acc p q : Byte) :
    mulLoop k acc p q =
      (List.range k).foldl (fun sum i => if q.getLsbD i then sum ^^^ mulReduce^[i] p else sum) acc := by
  induction k generalizing acc p q with
  | zero => rfl
  | succ k ih =>
    have shifted : ∀ i, (shr1 q).getLsbD i = q.getLsbD (i + 1) := fun i => by
      rw [shr1, BitVec.getLsbD_ushiftRight, Nat.add_comm]
    rw [mulLoop, ih, List.range_succ_eq_map, List.foldl_cons, List.foldl_map]
    simp only [shifted, Function.iterate_succ_apply, Function.iterate_zero_apply]

/-- One iteration of the reduction of R86: a set bit i is cleared by a multiple of the modulus. -/
def clearBit (c : BitVec 16) (i : Nat) : BitVec 16 :=
  if c.getLsbD i then c ^^^ (Config.modulus.setWidth 16 <<< (i - 8)) else c

theorem polyReduce_eq_foldl_clearBit (c : BitVec 16) :
    polyReduce c = [14, 13, 12, 11, 10, 9, 8].foldl clearBit c := rfl

theorem clearBit_of_clear {c : BitVec 16} {i : Nat} (h : c.getLsbD i = false) : clearBit c i = c := by
  simp [clearBit, h]

theorem clearBit_xor (c d : BitVec 16) (i : Nat) : clearBit (c ^^^ d) i = clearBit c i ^^^ clearBit d i := by
  have moved : ∀ m : BitVec 16, c ^^^ d ^^^ m = c ^^^ m ^^^ d := fun m => by ac_rfl
  have twice : ∀ m : BitVec 16, c ^^^ d = c ^^^ m ^^^ (d ^^^ m) := fun m => by
    rw [BitVec.xor_assoc, BitVec.xor_comm d m, ← BitVec.xor_assoc m, BitVec.xor_self, BitVec.zero_xor]
  rw [clearBit, clearBit, clearBit, BitVec.getLsbD_xor]
  cases c.getLsbD i <;> cases d.getLsbD i
  · rfl
  · exact BitVec.xor_assoc c d _
  · exact moved _
  · exact twice _

theorem clearBit_shiftLeft_one {i : Nat} (low : 8 ≤ i) (high : i < 15) (c : BitVec 16) :
    clearBit (c <<< 1) (i + 1) = clearBit c i <<< 1 := by
  have bit : (c <<< 1).getLsbD (i + 1) = c.getLsbD i := by
    rw [BitVec.getLsbD_shiftLeft, Nat.add_sub_cancel]
    simp only [show i + 1 < 16 by omega, Nat.not_lt.mpr (Nat.le_add_left 1 i), decide_true, decide_false,
      Bool.not_false, Bool.true_and]
  have multiple : Config.modulus.setWidth 16 <<< (i + 1 - 8) = Config.modulus.setWidth 16 <<< (i - 8) <<< 1 := by
    rw [← BitVec.shiftLeft_add, Nat.sub_add_comm low]
  rw [clearBit, clearBit, bit, multiple, ← BitVec.shiftLeft_xor_distrib, apply_ite (fun x : BitVec 16 => x <<< 1)]

theorem foldl_clearBit_of_clear {c : BitVec 16} {l : List Nat} (h : ∀ i ∈ l, c.getLsbD i = false) :
    l.foldl clearBit c = c := by
  induction l with
  | nil => rfl
  | cons i l ih =>
    rw [List.foldl_cons, clearBit_of_clear (h i List.mem_cons_self)]
    exact ih fun j hj => h j (List.mem_cons_of_mem i hj)

theorem foldl_clearBit_xor (l : List Nat) (c d : BitVec 16) :
    l.foldl clearBit (c ^^^ d) = l.foldl clearBit c ^^^ l.foldl clearBit d := by
  induction l generalizing c d with
  | nil => rfl
  | cons i l ih => simp only [List.foldl_cons, clearBit_xor, ih]

theorem foldl_clearBit_shiftLeft_one {l : List Nat} (h : ∀ i ∈ l, 8 ≤ i ∧ i < 15) (c : BitVec 16) :
    (l.map (· + 1)).foldl clearBit (c <<< 1) = l.foldl clearBit c <<< 1 := by
  induction l generalizing c with
  | nil => rfl
  | cons i l ih =>
    obtain ⟨low, high⟩ := h i List.mem_cons_self
    rw [List.map_cons, List.foldl_cons, List.foldl_cons, clearBit_shiftLeft_one low high]
    exact ih (fun j hj => h j (List.mem_cons_of_mem i hj)) _

/-- The last iteration, on a shifted value, is the multiplier's reduction step on its low byte. -/
theorem setWidth_clearBit_shiftLeft_one (c : BitVec 16) :
    (clearBit (c <<< 1) 8).setWidth 8 = mulReduce (c.setWidth 8) := by
  have bit : (c <<< 1).getLsbD 8 = msb (c.setWidth 8) := by simp [msb]
  have low : (c <<< 1).setWidth 8 = shl1 (c.setWidth 8) := by
    simp [shl1, BitVec.setWidth_shiftLeft_of_le]
  rw [clearBit, mulReduce, bit, ← low]
  split
  · rw [BitVec.setWidth_xor]; rfl
  · rfl

/-- `c[7:0]` after the reduction of R86. -/
def residue (c : BitVec 16) : Byte := (polyReduce c).setWidth 8

theorem residue_xor (c d : BitVec 16) : residue (c ^^^ d) = residue c ^^^ residue d := by
  simp only [residue, polyReduce_eq_foldl_clearBit, foldl_clearBit_xor, BitVec.setWidth_xor]

/-- A value of degree below 14 may be shifted after its reduction instead of before it. -/
theorem residue_shiftLeft_one {c : BitVec 16} (h : c.getLsbD 14 = false) :
    residue (c <<< 1) = mulReduce (residue c) := by
  have shifted : [13, 12, 11, 10, 9, 8].map (· + 1) = [14, 13, 12, 11, 10, 9] := rfl
  have head : polyReduce c = [13, 12, 11, 10, 9, 8].foldl clearBit c := by
    rw [polyReduce_eq_foldl_clearBit, List.foldl_cons, clearBit_of_clear h]
  have last : polyReduce (c <<< 1) = clearBit (polyReduce c <<< 1) 8 := by
    rw [head, ← foldl_clearBit_shiftLeft_one (by decide), shifted]
    rfl
  rw [residue, last, setWidth_clearBit_shiftLeft_one, residue]

/-- The residue of one summand of the carry-less product. -/
theorem residue_shiftLeft (a : Byte) {i : Nat} (h : i < 8) :
    residue (a.setWidth 16 <<< i) = mulReduce^[i] a := by
  induction i with
  | zero =>
    have clear : ∀ i ∈ [14, 13, 12, 11, 10, 9, 8], (a.setWidth 16).getLsbD i = false := by simp
    rw [BitVec.shiftLeft_zero, residue, polyReduce_eq_foldl_clearBit, foldl_clearBit_of_clear clear]
    simp
  | succ i ih =>
    have clear : (a.setWidth 16 <<< i).getLsbD 14 = false := by
      rw [BitVec.getLsbD_shiftLeft, BitVec.getLsbD_setWidth, BitVec.getLsbD_of_ge a _ (by omega)]
      simp
    rw [BitVec.shiftLeft_add, residue_shiftLeft_one clear, ih (by omega), Function.iterate_succ_apply']

/-- The product of R86 as one sum: the reduction of each summand. -/
theorem polyMul_eq_foldl (a b : Byte) :
    polyMul a b =
      (List.range 8).foldl
        (fun sum i => if b.getLsbD i then sum ^^^ residue (a.setWidth 16 <<< i) else sum) 0x00#8 := by
  symm
  refine List.foldl_hom residue (init := 0#16) fun c i => ?_
  split
  · exact (residue_xor _ _).symm
  · rfl

/-- Settles O14: the loop and the reduced product add up the same summands. -/
theorem multiplicationIsPolynomialMultiplicationModuloTheModulus :
    Obligations.MultiplicationIsPolynomialMultiplicationModuloTheModulus := by
  intro a b
  rw [gfMul, mulLoop_eq_foldl, polyMul_eq_foldl]
  refine List.foldl_ext _ _ _ fun sum i hi => ?_
  rw [residue_shiftLeft a (List.mem_range.mp hi)]

end Sys2Proof.Machine
end

section
/-! Unit FA (40_field_arithmetic.md R85): multiplication distributes over exclusive or, so a law of products holds for
all bytes once it holds for the eight bytes with one set bit. -/

namespace Sys2Proof.Machine

/-- Conditional summands add up: where both conditions hold the summand cancels. -/
theorem xor_ite_xor (b c : Bool) (x y p : Byte) :
    (if b ^^ c then x ^^^ y ^^^ p else x ^^^ y) = (if b then x ^^^ p else x) ^^^ (if c then y ^^^ p else y) := by
  have cancel : x ^^^ p ^^^ (y ^^^ p) = x ^^^ y ^^^ (p ^^^ p) := by ac_rfl
  cases b <;> cases c
  · rfl
  · exact BitVec.xor_assoc x y p
  · show x ^^^ y ^^^ p = x ^^^ p ^^^ y
    ac_rfl
  · exact (cancel.trans (by simp)).symm

theorem mulReduce_xor (x y : Byte) : mulReduce (x ^^^ y) = mulReduce x ^^^ mulReduce y := by
  have wide : ∀ p : Byte, mulReduce p = (clearBit (p.setWidth 16 <<< 1) 8).setWidth 8 := fun p => by
    rw [setWidth_clearBit_shiftLeft_one, BitVec.setWidth_setWidth_of_le _ (by decide), BitVec.setWidth_eq]
  simp only [wide, BitVec.setWidth_xor, BitVec.shiftLeft_xor_distrib, clearBit_xor]

theorem mulLoop_xor_left (k : Nat) (acc acc' p p' q : Byte) :
    mulLoop k (acc ^^^ acc') (p ^^^ p') q = mulLoop k acc p q ^^^ mulLoop k acc' p' q := by
  induction k generalizing acc acc' p p' q with
  | zero => rfl
  | succ k ih =>
    have moved : acc ^^^ acc' ^^^ (p ^^^ p') = acc ^^^ p ^^^ (acc' ^^^ p') := by ac_rfl
    simp only [mulLoop, mulReduce_xor, ← ih, moved]
    split <;> rfl

theorem mulLoop_xor_right (k : Nat) (acc acc' p q q' : Byte) :
    mulLoop k (acc ^^^ acc') p (q ^^^ q') = mulLoop k acc p q ^^^ mulLoop k acc' p q' := by
  induction k generalizing acc acc' p q q' with
  | zero => rfl
  | succ k ih => simp only [mulLoop, shr1, BitVec.ushiftRight_xor_distrib, BitVec.getLsbD_xor, xor_ite_xor, ← ih]

theorem gfMul_xor_left (a b c : Byte) : gfMul (a ^^^ b) c = gfMul a c ^^^ gfMul b c :=
  mulLoop_xor_left 8 0x00#8 0x00#8 a b c

theorem gfMul_xor_right (a b c : Byte) : gfMul a (b ^^^ c) = gfMul a b ^^^ gfMul a c :=
  mulLoop_xor_right 8 0x00#8 0x00#8 a b c

/-- Induction on the set bits of a byte. -/
theorem byte_induction {P : Byte → Prop} (basis : ∀ i : Fin 8, P (0x01#8 <<< i.val))
    (xor : ∀ x y, P x → P y → P (x ^^^ y)) (x : Byte) : P x := by
  have zero : P 0x00#8 := by simpa using xor _ _ (basis 0) (basis 0)
  have bits : ∀ x : Byte, (List.finRange 8).foldl
      (fun sum (i : Fin 8) => if x.getLsbD i.val then sum ^^^ 0x01#8 <<< i.val else sum) 0x00#8 = x := by
    decide +kernel
  rw [← bits x]
  refine List.foldlRecOn _ _ zero fun sum h i _ => ?_
  split
  · exact xor _ _ h (basis i)
  · exact h

/-- Both sides distribute over exclusive or in each operand, so the 64 products of single bits decide. -/
theorem gfMul_comm (a b : Byte) : gfMul a b = gfMul b a := by
  induction a using byte_induction with
  | xor x y hx hy => rw [gfMul_xor_left, gfMul_xor_right, hx, hy]
  | basis i =>
    induction b using byte_induction with
    | xor x y hx hy => rw [gfMul_xor_left, gfMul_xor_right, hx, hy]
    | basis j =>
      revert i j
      decide +kernel

/-- As commutativity, on the 512 products of three single bits. -/
theorem gfMul_assoc (a b c : Byte) : gfMul (gfMul a b) c = gfMul a (gfMul b c) := by
  induction a using byte_induction with
  | xor x y hx hy => simp only [gfMul_xor_left, hx, hy]
  | basis i =>
    induction b using byte_induction with
    | xor x y hx hy => simp only [gfMul_xor_left, gfMul_xor_right, hx, hy]
    | basis j =>
      induction c using byte_induction with
      | xor x y hx hy => simp only [gfMul_xor_right, hx, hy]
      | basis k =>
        revert i j k
        decide +kernel

@[simp] theorem gfMul_one (a : Byte) : gfMul a 0x01#8 = a := by
  induction a using byte_induction with
  | xor x y hx hy => rw [gfMul_xor_left, hx, hy]
  | basis i =>
    revert i
    decide +kernel

@[simp] theorem one_gfMul (a : Byte) : gfMul 0x01#8 a = a := by
  rw [gfMul_comm, gfMul_one]

@[simp] theorem gfMul_zero (a : Byte) : gfMul a 0x00#8 = 0x00#8 := by
  simpa using gfMul_xor_right a 0x00#8 0x00#8

@[simp] theorem zero_gfMul (a : Byte) : gfMul 0x00#8 a = 0x00#8 := by
  rw [gfMul_comm, gfMul_zero]

end Sys2Proof.Machine
end

section
/-! Unit INV (41_inverse.md R90, R92): raising to the power 256 is eight squarings, squaring is additive, and so a^256
is a for every byte; then a^255 is its own square, hence 1 unless a is 0. -/

namespace Sys2Proof.Machine

theorem gfPow_add (a : Byte) (m n : Nat) : gfPow a (m + n) = gfMul (gfPow a m) (gfPow a n) := by
  induction n with
  | zero => exact (gfMul_one _).symm
  | succ n ih => rw [← Nat.add_assoc, gfPow, gfPow, ih, gfMul_assoc]

/-- The product of an element with itself, the map a ↦ a^2 of which a^256 is the eighth iterate. -/
def gfSquare (a : Byte) : Byte := gfMul a a

/-- Squaring is additive, since the two mixed products cancel. -/
theorem gfSquare_xor (x y : Byte) : gfSquare (x ^^^ y) = gfSquare x ^^^ gfSquare y := by
  have cancel : gfMul x x ^^^ gfMul x y ^^^ (gfMul x y ^^^ gfMul y y) =
      gfMul x x ^^^ (gfMul x y ^^^ gfMul x y) ^^^ gfMul y y := by ac_rfl
  rw [gfSquare, gfMul_xor_left, gfMul_xor_right, gfMul_xor_right, gfMul_comm y x, cancel, BitVec.xor_self,
    BitVec.xor_zero, gfSquare, gfSquare]

theorem gfSquare_iterate_xor (n : Nat) (x y : Byte) :
    gfSquare^[n] (x ^^^ y) = gfSquare^[n] x ^^^ gfSquare^[n] y := by
  induction n generalizing x y with
  | zero => rfl
  | succ n ih => simp only [Function.iterate_succ_apply, gfSquare_xor, ih]

theorem gfPow_two_pow (a : Byte) (n : Nat) : gfPow a (2 ^ n) = gfSquare^[n] a := by
  induction n with
  | zero => exact one_gfMul a
  | succ n ih => rw [Nat.pow_succ, Nat.mul_two, gfPow_add, ih, Function.iterate_succ_apply', gfSquare]

/-- Every byte is a root of x^256 + x. -/
theorem gfPow_256 (a : Byte) : gfPow a 256 = a := by
  refine (gfPow_two_pow a 8).trans ?_
  induction a using byte_induction with
  | xor x y hx hy => rw [gfSquare_iterate_xor, hx, hy]
  | basis i =>
    revert i
    decide +kernel

/-- The field has no idempotents but 0 and 1. -/
theorem eq_zero_or_one_of_gfMul_self : ∀ e : Byte, gfMul e e = e → e = 0x00#8 ∨ e = 0x01#8 := by
  decide +kernel

/-- The order of a nonzero element divides 255. -/
theorem gfPow_255 {a : Byte} (h : a ≠ 0x00#8) : gfPow a 255 = 0x01#8 := by
  have step : gfMul (gfPow a 255) a = a := gfPow_256 a
  have square : gfMul (gfPow a 255) (gfPow a 255) = gfPow a 255 := by
    rw [← gfPow_add, gfPow_add a 254 256, gfPow_256, ← gfPow]
  rcases eq_zero_or_one_of_gfMul_self _ square with zero | one
  · rw [zero, zero_gfMul] at step
    exact absurd step.symm h
  · exact one

theorem gfMul_gfInv {a : Byte} (h : a ≠ 0x00#8) : gfMul a (gfInv a) = 0x01#8 := by
  rw [gfMul_comm]
  exact gfPow_255 h

theorem gfInv_zero : gfInv 0x00#8 = 0x00#8 := gfMul_zero _

theorem gfInv_ne_zero {a : Byte} (h : a ≠ 0x00#8) : gfInv a ≠ 0x00#8 := by
  intro zero
  have := gfMul_gfInv h
  rw [zero, gfMul_zero] at this
  exact absurd this (by decide)

/-- The element and the second inverse are both inverses of the first. -/
theorem gfInv_involutive : Function.Involutive gfInv := by
  intro a
  by_cases h : a = 0x00#8
  · rw [h, gfInv_zero, gfInv_zero]
  · calc gfInv (gfInv a) = gfMul (gfMul a (gfInv a)) (gfInv (gfInv a)) := by rw [gfMul_gfInv h, one_gfMul]
      _ = a := by rw [gfMul_assoc, gfMul_gfInv (gfInv_ne_zero h), gfMul_one]

/-- Settles O16: the product is a^255, and an involution is a bijection. -/
theorem inverseLaws : Obligations.InverseLaws :=
  ⟨fun _ => gfMul_gfInv, gfInv_zero, gfInv_involutive, gfInv_involutive.bijective⟩

end Sys2Proof.Machine
end

section
/-! The command GFINV (41_inverse.md R91), and the words that a nonzero field `b` makes illegal. -/

namespace Sys2Proof.Machine

theorem encode_gfinv (a : Byte) : encode (.gfinv a) = BitVec.ofNat 20 (0x30000 + a.toNat * 256) := by
  simp [encode, fieldsOfInstr, toWord_eq_ofNat]

theorem answersOnly_gfinv (a : Byte) (s : State) : AnswersOnly (.gfinv a) s (gfInv a) :=
  answersOnly_of_respond (exec_gfinv a s)

theorem answersOnly_gfmul (a b : Byte) (s : State) : AnswersOnly (.gfmul a b) s (gfMul a b) :=
  answersOnly_of_respond (exec_gfmul a b s)

/-- The commands whose field `b` is MBZ (30_encoding.md R64). -/
theorem raisesIllegal_of_nonzero_b {op : Nibble} (h : op ∈ [0x3#4, 0x4#4, 0x6#4]) (a : Byte) {b : Byte}
    (hb : b ≠ 0x00#8) (s : State) :
    RaisesIllegal (BitVec.ofNat 20 (op.toNat * 0x10000 + a.toNat * 256 + b.toNat)) s := by
  have ill : Cmd20.wf ⟨op, a, b⟩ = false := by
    rw [wf_of_zeroB h]
    exact beq_false_of_ne hb
  rw [← toWord_eq_ofNat ⟨op, a, b⟩]
  exact ⟨_, perform_illegal ((fieldsOf_toWord _).symm ▸ ill) s, errorEffect_raise s .illegal⟩

/-- Settles O15: the inverse of the inverse is the law of R92, and the listed inverses are evaluated. -/
theorem gfinvAnswersTheInverseAndWritesNothing : Obligations.GfinvAnswersTheInverseAndWritesNothing := by
  have inverse : gfInv 0x53#8 = 0xCA#8 := by decide +kernel
  have product : gfMul 0x53#8 0xCA#8 = 0x01#8 := inverse ▸ gfMul_gfInv (by decide)
  refine ⟨encode_gfinv, answersOnly_gfinv, fun a b s hb => raisesIllegal_of_nonzero_b (op := 0x3#4) (by decide) a hb s,
    gfInv_zero, by decide +kernel, by decide +kernel, by decide +kernel, gfInv_involutive, fun s => ?_, fun s => ?_⟩
  · have answer := answersOnly_gfinv 0x53#8 s
    rw [inverse] at answer
    exact perform_answer (by decide) answer
  · have answer := answersOnly_gfmul 0x53#8 0xCA#8 s
    rw [product] at answer
    exact perform_answer (by decide) answer

end Sys2Proof.Machine
end

section
/-! The affine map (42_affine.md R100, R102), bit by bit: a byte assembled from bits has those bits, so each other form
of the map need only be read off at one bit position. -/

namespace Sys2Proof.Machine

theorem getLsbD_byteOfBits (f : Nat → Bool) {i : Nat} (h : i < 8) : (byteOfBits f).getLsbD i = f i := by
  simp only [byteOfBits, BitVec.getLsbD_append]
  interval_cases i <;> simp

theorem getLsbD_affineC (x c : Byte) {i : Nat} (h : i < 8) : (affineC x c).getLsbD i = affineBit x c i :=
  getLsbD_byteOfBits (affineBit x c) h

/-- Settles O18: the map is assembled from the bits that R100 names. -/
theorem affineMapBitByBit : Obligations.AffineMapBitByBit :=
  fun x _ h => getLsbD_affineC x Config.affineConstant h

/-- Bit i of a rotated byte comes from k positions below, cyclically. -/
theorem getLsbD_rotateLeft_byte (x : Byte) {k i : Nat} (hk : k < 8) (hi : i < 8) :
    (x.rotateLeft k).getLsbD i = x.getLsbD ((i + (8 - k)) % 8) := by
  rw [BitVec.getLsbD_rotateLeft, Nat.mod_eq_of_lt hk]
  by_cases low : i < k
  · rw [decide_eq_true low, cond_true, Nat.mod_eq_of_lt (by omega), show 8 - k + i = i + (8 - k) by omega]
  · rw [decide_eq_false low, cond_false, decide_eq_true hi, Bool.true_and,
      show (i + (8 - k)) % 8 = i - k by omega]

/-- What `ac_rfl` needs to reorder a sum of bits. -/
theorem xor_commutative : Std.Commutative xor := ⟨Bool.xor_comm⟩

theorem parity8_xor_and (x y m : Byte) : parity8 ((x ^^^ y) &&& m) = (parity8 (x &&& m) ^^ parity8 (y &&& m)) := by
  have comm := xor_commutative
  simp only [parity8, BitVec.getLsbD_and, BitVec.getLsbD_xor, Bool.and_xor_distrib_right]
  ac_rfl

theorem affineBit_xor (x y c d : Byte) (i : Nat) :
    affineBit (x ^^^ y) (c ^^^ d) i = (affineBit x c i ^^ affineBit y d i) := by
  have comm := xor_commutative
  simp only [affineBit, BitVec.getLsbD_xor]
  ac_rfl

@[simp] theorem affineBit_zero (c : Byte) (i : Nat) : affineBit 0x00#8 c i = c.getLsbD i := by
  simp [affineBit]

/-- Row i of R102 (a) selects the five input bits of output bit i: both sides add up over the set bits of `x`. -/
theorem parity8_and_rowMask (x : Byte) {i : Nat} (h : i < 8) : parity8 (x &&& rowMask i) = affineBit x 0x00#8 i := by
  induction x using byte_induction with
  | xor x y hx hy => rw [parity8_xor_and, hx, hy, ← affineBit_xor, BitVec.xor_self]
  | basis j =>
    decide +revert

theorem affineBit_eq_xor (x c : Byte) (i : Nat) : affineBit x c i = (affineBit x 0x00#8 i ^^ c.getLsbD i) := by
  simpa using affineBit_xor x 0x00#8 0x00#8 c i

theorem affineByRows_eq_affineMap (x : Byte) : affineByRows x = affineMap x := by
  apply BitVec.eq_of_getLsbD_eq
  intro i h
  rw [affineByRows, getLsbD_byteOfBits _ h, parity8_and_rowMask x h, ← affineBit_eq_xor, affineMap,
    getLsbD_affineC _ _ h]

theorem affineByRotations_eq_affineMap (x : Byte) : affineByRotations x = affineMap x := by
  apply BitVec.eq_of_getLsbD_eq
  intro i h
  rw [affineMap, getLsbD_affineC _ _ h, affineBit]
  simp (disch := omega) only [affineByRotations, BitVec.getLsbD_xor, getLsbD_rotateLeft_byte, Nat.reduceSub]
  have comm := xor_commutative
  ac_rfl

end Sys2Proof.Machine
end

section
/-! The affine map as a linear map and a constant (42_affine.md R102 (c) and (d)): it distributes over exclusive or in
both arguments together, and four applications of its linear part are the identity. -/

namespace Sys2Proof.Machine

theorem affineC_xor (x y c d : Byte) : affineC (x ^^^ y) (c ^^^ d) = affineC x c ^^^ affineC y d := by
  apply BitVec.eq_of_getLsbD_eq
  intro i h
  rw [BitVec.getLsbD_xor, getLsbD_affineC _ _ h, getLsbD_affineC _ _ h, getLsbD_affineC _ _ h, affineBit_xor]

@[simp] theorem affineC_zero (c : Byte) : affineC 0x00#8 c = c := by
  apply BitVec.eq_of_getLsbD_eq
  intro i h
  rw [getLsbD_affineC _ _ h, affineBit_zero]

theorem affineC_eq_xor (x c : Byte) : affineC x c = affineC x 0x00#8 ^^^ c := by
  simpa using affineC_xor x 0x00#8 0x00#8 c

/-- The constants of two applications cancel. -/
theorem affineMap_xor_affineMap (x y : Byte) : affineMap x ^^^ affineMap y = affineC (x ^^^ y) 0x00#8 := by
  rw [affineMap, affineMap, ← affineC_xor, BitVec.xor_self]

/-- The linear part of the map, the matrix of R100 without the constant. -/
def affineLinear (x : Byte) : Byte := affineC x 0x00#8

theorem affineLinear_xor (x y : Byte) : affineLinear (x ^^^ y) = affineLinear x ^^^ affineLinear y :=
  affineC_xor x y 0x00#8 0x00#8

/-- The fourth power of the matrix is the identity, as it is on single bits. -/
theorem affineLinear_comp_self_involutive : Function.Involutive (affineLinear ∘ affineLinear) := by
  intro x
  simp only [Function.comp_apply]
  induction x using byte_induction with
  | xor x y hx hy => simp only [affineLinear_xor, hx, hy]
  | basis i =>
    decide +revert +kernel

theorem affineLinear_bijective : Function.Bijective affineLinear :=
  ⟨affineLinear_comp_self_involutive.injective.of_comp, affineLinear_comp_self_involutive.surjective.of_comp⟩

/-- With whatever constant, the map is the linear part followed by an involution. -/
theorem affineC_bijective (c : Byte) : Function.Bijective (affineC · c) := by
  have constant : Function.Involutive (fun y : Byte => y ^^^ c) := fun y => by simp
  rw [funext (affineC_eq_xor · c)]
  exact constant.bijective.comp affineLinear_bijective

theorem affineMap_bijective : Function.Bijective affineMap := affineC_bijective Config.affineConstant

/-- Settles O20: the row masks and the rotations bit by bit, the rest from the linear part. -/
theorem formsOfTheAffineMapAgree : Obligations.FormsOfTheAffineMapAgree :=
  ⟨affineByRows_eq_affineMap, affineByRotations_eq_affineMap, fun x => affineC_eq_xor x Config.affineConstant,
    affineMap_xor_affineMap, affineMap_bijective⟩

end Sys2Proof.Machine
end

section
/-! The command AFFINE (42_affine.md R101). -/

namespace Sys2Proof.Machine

theorem encode_affine (a : Byte) : encode (.affine a) = BitVec.ofNat 20 (0x40000 + a.toNat * 256) := by
  simp [encode, fieldsOfInstr, toWord_eq_ofNat]

theorem answersOnly_affine (a : Byte) (s : State) : AnswersOnly (.affine a) s (affineMap a) :=
  answersOnly_of_respond (exec_affine a s)

/-- The map is injective, so the one input found is the only one. -/
theorem affineMap_eq_zero_iff (a : Byte) : affineMap a = 0x00#8 ↔ a = 0x05#8 := by
  rw [show 0x00#8 = affineMap 0x05#8 by decide]
  exact affineMap_bijective.injective.eq_iff

/-- Settles O19: the input 0x00 leaves the constant alone, the other listed values are evaluated, and 0x05 is the one
preimage of 0x00 since the map is a bijection. -/
theorem affineAnswersTheMapAndWritesNothing : Obligations.AffineAnswersTheMapAndWritesNothing :=
  ⟨encode_affine, answersOnly_affine, fun a _ s hb => raisesIllegal_of_nonzero_b (op := 0x4#4) (by decide) a hb s,
    affineC_zero Config.affineConstant, by decide, by decide, affineMap_eq_zero_iff,
    fun s => perform_answer (by decide) (answersOnly_affine 0xCA#8 s)⟩

end Sys2Proof.Machine
end

section
/-! The commands of Unit GEN (43_sbox_generator.md): inversions of GEN, RDSB and WRSB, and the tables that read alike. -/

namespace Sys2Proof.Machine

/-- A command has one outcome. -/
theorem eq_of_exec {i : Instr} {s t u : State} (h : exec i s = .next t) (hu : exec i s = .next u) : t = u :=
  Host.Outcome.next.inj (h.symm.trans hu)

@[simp] theorem tv_respond (s : State) (d : Byte) : (s.respond d).tv = s.tv :=
  tv_congr (respond_sbox s d)

/-- The commands whose fields `a` and `b` are both MBZ (30_encoding.md R64). -/
theorem raisesIllegal_of_nonzero_ab {op : Nibble} (h : op ∈ [0x5#4, 0x8#4, 0x9#4, 0xA#4, 0xB#4, 0xF#4]) {a b : Byte}
    (hab : a ≠ 0x00#8 ∨ b ≠ 0x00#8) (s : State) :
    RaisesIllegal (BitVec.ofNat 20 (op.toNat * 0x10000 + a.toNat * 256 + b.toNat)) s := by
  have ill : Cmd20.wf ⟨op, a, b⟩ = false := by
    rw [wf_of_zeroAB h]
    simpa [← not_and_or] using hab
  rw [← toWord_eq_ofNat ⟨op, a, b⟩]
  exact ⟨_, perform_illegal ((fieldsOf_toWord _).symm ▸ ill) s, errorEffect_raise s .illegal⟩

theorem read_of_not_mem {m : Memory} {i : Nat} (h : ∀ c ∈ m, c.1 ≠ i) : Memory.read m i = none := by
  induction m with
  | nil => rfl
  | cons c m ih =>
    rw [Memory.read, if_neg (h c List.mem_cons_self)]
    exact ih fun d hd => h d (List.mem_cons_of_mem _ hd)

/-- In canonical form the 256 entries determine the table memory as data (20_memory.md R40). -/
theorem sbox_ext {s t : State} (hs : Memory.wf s.sbox) (ht : Memory.wf t.sbox)
    (h : ∀ i, s.memRead i = t.memRead i) : s.sbox = t.sbox := by
  refine wf_ext hs ht fun i => ?_
  by_cases hi : i < 256
  · simpa [State.memRead, Nat.mod_eq_of_lt hi] using h (BitVec.ofNat 8 i)
  · have outside {m : Memory} (hm : Memory.wf m) : Memory.read m i = none :=
      read_of_not_mem fun c hc => ((hm.2 c hc).trans_le (not_lt.mp hi)).ne
    rw [outside hs, outside ht]

/-! The three entries that R112 names. -/

theorem sboxEntry_zero : sboxEntry 0x00#8 = 0x63#8 := by
  rw [sboxEntry, gfInv_zero, affineMap, affineC_zero, Config.affineConstant]

theorem sboxEntry_one : sboxEntry 0x01#8 = 0x7C#8 := by decide +kernel

theorem sboxEntry_0x53 : sboxEntry 0x53#8 = 0xED#8 := by decide +kernel

theorem memRead_of_exec_gen {s t : State} (h : exec .gen s = .next t) (i : Byte) : t.memRead i = some (sboxEntry i) := by
  rw [eq_of_exec h (exec_gen s), memRead_respond, memRead_genTable]

theorem wf_of_exec_gen {s t : State} (h : exec .gen s = .next t) (hs : Memory.wf s.sbox) : Memory.wf t.sbox := by
  rw [eq_of_exec h (exec_gen s), respond_sbox]
  exact genTable_wf s hs

/-- After any two GENs the tables are equal as data. -/
theorem sbox_eq_of_exec_gen {s s' t t' : State} (h : exec .gen s = .next t) (h' : exec .gen s' = .next t')
    (hs : Memory.wf s.sbox) (hs' : Memory.wf s'.sbox) : t.sbox = t'.sbox :=
  sbox_ext (wf_of_exec_gen h hs) (wf_of_exec_gen h' hs') fun i => by
    rw [memRead_of_exec_gen h, memRead_of_exec_gen h']

theorem answersOnly_rdsb {i v : Byte} {s : State} (h : s.memRead i = some v) : AnswersOnly (.rdsb i) s v :=
  answersOnly_of_respond (exec_rdsb_some h)

theorem answersOnly_rdst (s : State) : AnswersOnly .rdst s s.statusByte :=
  answersOnly_of_respond (exec_rdst s)

theorem memRead_of_exec_wrsb {i v : Byte} {s t : State} (h : exec (.wrsb i v) s = .next t) :
    t.memRead i = some v ∧ ∀ j, j ≠ i → t.memRead j = s.memRead j := by
  rw [eq_of_exec h (exec_wrsb i v s)]
  exact ⟨memRead_memWrite_same s i v, fun j hj => memRead_memWrite_other s v hj⟩

/-- The write completes a table that has every other entry. -/
theorem tv_of_exec_wrsb {i v : Byte} {s t : State} (h : exec (.wrsb i v) s = .next t)
    (others : ∀ j, j ≠ i → s.written j = true) : t.tv = true := by
  refine (tv_iff t).mpr fun j => ((effect_of_exec h).written_iff j).mpr ⟨by simp, ?_⟩
  by_cases hj : j = i
  · exact .inr (.inr ⟨v, hj ▸ rfl⟩)
  · exact .inl (others j hj)

theorem encode_rdsb (i : Byte) : encode (.rdsb i) = BitVec.ofNat 20 (0x60000 + i.toNat * 256) := by
  simp [encode, fieldsOfInstr, toWord_eq_ofNat]

theorem encode_wrsb (i v : Byte) :
    encode (.wrsb i v) = BitVec.ofNat 20 (0x70000 + i.toNat * 256 + v.toNat) := by
  simp [encode, fieldsOfInstr, toWord_eq_ofNat]

end Sys2Proof.Machine
end

section
/-! The statements about GEN, RDSB and WRSB (43_sbox_generator.md R111 to R115). -/

namespace Sys2Proof.Machine

/-- Settles O22: the entries are those of `genTable`, and from the reset state `TV` is the one bit of the status byte that
is set. -/
theorem genWritesTheWholeTableAndClearsSv : Obligations.GenWritesTheWholeTableAndClearsSv := by
  refine ⟨by decide, fun s => ?_, fun a b s hab => raisesIllegal_of_nonzero_ab (op := 0x5#4) (by decide) hab s, ?_⟩
  · have tv : (s.genTable.respond 0x00#8).tv = true := by rw [tv_respond, tv_genTable]
    exact ⟨_, exec_gen s, rfl, memRead_of_exec_gen (exec_gen s), tv, rfl, rfl, rfl, rfl, rfl, rfl⟩
  · intro s t hs h
    refine ⟨?_, answersOnly_rdsb (sboxEntry_0x53 ▸ memRead_of_exec_gen h 0x53#8)⟩
    have status : t.statusByte = 0x01#8 := by
      rw [eq_of_exec h (exec_gen s)]
      simp [State.statusByte, tv_genTable, hs.es, hs.fe]
    exact status ▸ answersOnly_rdst t

/-- Settles O24: an entry after GEN depends on its index alone. -/
theorem genIsIdempotentAndForgetsTheOldTable : Obligations.GenIsIdempotentAndForgetsTheOldTable := by
  have entries {s s' t t' : State} (h : exec .gen s = .next t) (h' : exec .gen s' = .next t') (i : Byte) :
      t.memRead i = t'.memRead i := by
    rw [memRead_of_exec_gen h, memRead_of_exec_gen h']
  refine ⟨fun _ _ _ _ => entries, fun _ _ _ _ hs hs' h h' => sbox_eq_of_exec_gen h h' hs hs', fun s t u h h' => ?_⟩
  exact ⟨entries h' h, fun hs => sbox_eq_of_exec_gen h' h (wf_of_exec_gen h hs) hs⟩

/-- Settles O25: the two cases of RDSB are whether the entry reads as a byte; the examples evaluate what WRSB and GEN
wrote. -/
theorem rdsbAnswersAWrittenEntryAndOnlyThat : Obligations.RdsbAnswersAWrittenEntryAndOnlyThat := by
  refine ⟨encode_rdsb, fun i v s => answersOnly_rdsb, fun i s h => ?_,
    fun i s h => ⟨_, exec_rdsb_none ((written_eq_false_iff s i).mp h), errorEffect_raise s .notReady, rfl⟩,
    fun i s hs => ⟨_, exec_rdsb_none (hs.unwritten i), rfl⟩,
    fun i b s hb => raisesIllegal_of_nonzero_b (op := 0x6#4) (by decide) i hb s, fun s t hs h => ?_, fun s t h => ?_⟩
  · obtain ⟨v, hv⟩ := (written_iff s i).mp h
    exact ⟨v, hv, answersOnly_rdsb hv⟩
  · obtain ⟨same, other⟩ := memRead_of_exec_wrsb h
    have unwritten : t.memRead 0x11#8 = none := (other 0x11#8 (by decide)).trans (hs.unwritten 0x11#8)
    exact ⟨answersOnly_rdsb same, _, exec_rdsb_none unwritten, rfl⟩
  · exact ⟨answersOnly_rdsb (sboxEntry_zero ▸ memRead_of_exec_gen h 0x00#8),
      answersOnly_rdsb (sboxEntry_one ▸ memRead_of_exec_gen h 0x01#8)⟩

/-- Settles O26: the entry written reads as the byte and every other as before, so the written bits, RDSB and `TV` follow
from the reads. -/
theorem wrsbWritesOneEntryAndClearsSv : Obligations.WrsbWritesOneEntryAndClearsSv := by
  refine ⟨encode_wrsb, fun i v s => ?_, fun i v s t htv h => tv_of_exec_wrsb h fun j _ => (tv_iff s).mp htv j,
    fun i v s t others h => tv_of_exec_wrsb h others⟩
  obtain ⟨same, other⟩ := memRead_of_exec_wrsb (exec_wrsb i v s)
  refine ⟨_, exec_wrsb i v s, rfl, same, (written_iff _ i).mpr ⟨v, same⟩, fun j hj => ⟨other j hj, ?_⟩,
    rfl, rfl, rfl, rfl, rfl, rfl, answersOnly_rdsb same⟩
  rw [State.written, other j hj, State.written]

end Sys2Proof.Machine
end

section
/-! The match count and the bias (44_nonlinearity.md R126, R127): the inputs of the search are the numbers below 256, so a
count over them is the size of a finite set, and the bias is the distance of that count from 128. -/

namespace Sys2Proof.Machine

theorem allBytes_eq_finRange : allBytes = (List.finRange 256).map BitVec.ofFin := by
  rw [allBytes, ← List.map_coe_finRange_eq_range, List.map_map]
  exact List.map_congr_left fun i _ => BitVec.eq_of_toNat_eq (Nat.mod_eq_of_lt i.isLt)

/-- Counting over the inputs is taking the size of a set of them. -/
theorem countP_allBytes (p : Byte → Bool) :
    allBytes.countP p = (Finset.univ.filter fun x : Fin 256 => p (BitVec.ofFin x) = true).card := by
  rw [allBytes_eq_finRange, List.countP_map, List.countP_eq_length_filter, Fin.univ_def]
  simp [Finset.filter, Finset.card, Function.comp_def]

theorem matchCount_eq_card (t : Table) (u v : Byte) :
    matchCount t u v = (Finset.univ.filter fun x : Fin 256 =>
      dot u (BitVec.ofFin x) = dot v (t.entry (BitVec.ofFin x))).card := by
  simp only [matchCount, countP_allBytes, beq_iff_eq]

theorem matchCount_le_256 (t : Table) (u v : Byte) : matchCount t u v ≤ 256 := by
  rw [matchCount_eq_card]
  exact (Finset.card_le_univ _).trans_eq (Fintype.card_fin 256)

theorem bias_le_128 (t : Table) (u v : Byte) : bias t u v ≤ 128 := by
  have := matchCount_le_256 t u v
  rw [bias_eq_distance, distance]
  omega

/-- Settles O27: each side of 128 is one branch of the distance. -/
theorem matchCountAndBiasAreTheCardinalAndItsDistanceFrom128 :
    Obligations.MatchCountAndBiasAreTheCardinalAndItsDistanceFrom128 := by
  intro t u v
  have dist : bias t u v = max (matchCount t u v - 128) (128 - matchCount t u v) := bias_eq_distance t u v
  exact ⟨matchCount_eq_card t u v, matchCount_le_256 t u v, fun below => by omega, fun above => by omega,
    bias_le_128 t u v⟩

end Sys2Proof.Machine
end

section
/-! The search (44_nonlinearity.md R128, R133): a running maximum is known by its upper bounds, and the upper bounds of the
search do not mention the order of the visits. -/

namespace Sys2Proof.Machine

theorem foldl_max_le_iff {α : Type} (f : α → Nat) (l : List α) (m b : Nat) :
    l.foldl (fun n x => max n (f x)) m ≤ b ↔ m ≤ b ∧ ∀ x ∈ l, f x ≤ b := by
  obtain ⟨bounds, start, attained⟩ := foldl_max_spec f l m
  refine ⟨fun h => ⟨start.trans h, fun x hx => (bounds x hx).trans h⟩, fun ⟨hm, hl⟩ => ?_⟩
  rcases attained with h | ⟨x, hx, h⟩
  · exact h.trans_le hm
  · exact h.trans_le (hl x hx)

theorem maxBiasInOrder_le_iff (t : Table) (pairs : List (Byte × Byte)) (b : Nat) :
    maxBiasInOrder t pairs ≤ b ↔ ∀ p ∈ pairs, bias t p.1 p.2 ≤ b := by
  simp [maxBiasInOrder, foldl_max_le_iff]

/-- Two orders that visit the same pairs find the same maximum. -/
theorem maxBiasInOrder_congr (t : Table) {l l' : List (Byte × Byte)} (h : ∀ p, p ∈ l ↔ p ∈ l') :
    maxBiasInOrder t l = maxBiasInOrder t l' :=
  eq_of_forall_ge_iff fun b => by simp only [maxBiasInOrder_le_iff, h]

/-- The order of R128: v outer, u inner. -/
def searchOrder : List (Byte × Byte) := nonzeroMasks.flatMap fun v => nonzeroMasks.map fun u => (u, v)

theorem mem_searchOrder (p : Byte × Byte) : p ∈ searchOrder ↔ p.1 ≠ 0x00#8 ∧ p.2 ≠ 0x00#8 := by
  obtain ⟨u, v⟩ := p
  simp [searchOrder, mem_nonzeroMasks, and_comm]

theorem maxBiasOf_eq_maxBiasInOrder (t : Table) : maxBiasOf t = maxBiasInOrder t searchOrder :=
  maxBiasOf_eq_foldl_pairs t

theorem maxBiasOf_le_iff (t : Table) (b : Nat) :
    maxBiasOf t ≤ b ↔ ∀ u v : Byte, u ≠ 0x00#8 → v ≠ 0x00#8 → bias t u v ≤ b := by
  simp [maxBiasOf_eq_maxBiasInOrder, maxBiasInOrder_le_iff, mem_searchOrder]

theorem bias_le_maxBiasOf (t : Table) {u v : Byte} (hu : u ≠ 0x00#8) (hv : v ≠ 0x00#8) : bias t u v ≤ maxBiasOf t :=
  (maxBiasOf_le_iff t _).mp le_rfl u v hu hv

theorem maxBiasOf_le_128 (t : Table) : maxBiasOf t ≤ 128 :=
  (maxBiasOf_le_iff t 128).mpr fun u v _ _ => bias_le_128 t u v

/-- The running maximum is its start 0 or a bias; where it is 0, it bounds the bias of the masks 0x01 and 0x01, which then
attains it. -/
theorem exists_bias_eq_maxBiasOf (t : Table) : ∃ u v : Byte, u ≠ 0x00#8 ∧ v ≠ 0x00#8 ∧ bias t u v = maxBiasOf t := by
  obtain ⟨-, -, start | ⟨⟨u, v⟩, hp, attained⟩⟩ := foldl_max_spec (fun p => bias t p.1 p.2) searchOrder 0
  · have bound := bias_le_maxBiasOf t (u := 0x01#8) (v := 0x01#8) (by decide) (by decide)
    have zero : maxBiasOf t = 0 := (maxBiasOf_eq_foldl_pairs t).trans start
    exact ⟨0x01#8, 0x01#8, by decide, by decide, by omega⟩
  · obtain ⟨hu, hv⟩ := (mem_searchOrder _).mp hp
    exact ⟨u, v, hu, hv, ((maxBiasOf_eq_foldl_pairs t).trans attained).symm⟩

/-- Settles O28: the maximum bounds the biases and is one of them, and no bias exceeds 128. -/
theorem theSearchFindsTheMaximumOverNonzeroMasks : Obligations.TheSearchFindsTheMaximumOverNonzeroMasks := fun t =>
  ⟨fun _ _ => bias_le_maxBiasOf t, exists_bias_eq_maxBiasOf t, maxBiasOf_le_128 t, rfl,
    Nat.sub_add_cancel (maxBiasOf_le_128 t)⟩

/-- The maxima of the lanes, combined, are the maximum of one lane that visits what they visit in turn. -/
theorem foldl_max_lanes (t : Table) (lanes : List (List (Byte × Byte))) :
    (lanes.map (maxBiasInOrder t)).foldl max 0 = maxBiasInOrder t lanes.flatten :=
  eq_of_forall_ge_iff fun b => by
    rw [List.foldl_map, foldl_max_le_iff, maxBiasInOrder_le_iff, List.forall_mem_flatten]
    simp [maxBiasInOrder_le_iff]

theorem maxBiasInOrder_eq_maxBiasOf (t : Table) {pairs : List (Byte × Byte)}
    (h : ∀ p : Byte × Byte, p ∈ pairs ↔ p.1 ≠ 0x00#8 ∧ p.2 ≠ 0x00#8) : maxBiasInOrder t pairs = maxBiasOf t :=
  (maxBiasInOrder_congr t fun p => (h p).trans (mem_searchOrder p).symm).trans (maxBiasOf_eq_maxBiasInOrder t).symm

/-- Settles O29: that each pair is visited only once is not needed, since a maximum does not count. -/
theorem theSearchDoesNotDependOnOrderOrLanes : Obligations.TheSearchDoesNotDependOnOrderOrLanes :=
  ⟨fun t _ _ h => maxBiasInOrder_eq_maxBiasOf t h,
    fun t lanes _ h => (foldl_max_lanes t lanes).trans (maxBiasInOrder_eq_maxBiasOf t h)⟩

end Sys2Proof.Machine
end

section
/-! The two command errors (60_exceptions.md R156 to R158): which of them, if any, the performing of a word ends in, and
what taking one leaves as before. -/

namespace Sys2Proof.Machine

@[simp] theorem rspData_rspWord (c : Nibble) (d : Byte) : rspData (rspWord c d) = d :=
  BitVec.extractLsb'_append_eq_right

theorem illegalWord_iff_decode_error (w : CmdWord) : IllegalWord w ↔ ∃ e, decode w = .error e := by
  rw [illegalWord_iff_wf, ← Bool.not_eq_true, ← decode_iff_wf]
  cases decode w <;> simp

/-- The three ways in which the performing of a word ends, each with its cause (R157), the state after it and its response:
the word is illegal; it is legal and what its command reads has not been written; or it is legal and its command ready. -/
inductive Ending (w : CmdWord) (s : State) : State → RspWord → Prop where
  /-- Illegal, from the word alone -/
  | illegal (cause : IllegalWord w) : Ending w s (s.raise .illegal) (rspWord CmdError.illegal.code 0x00#8)
  /-- NotReady, for a legal word only -/
  | notReady (i : Instr) (legal : decode w = .ok i) (cause : NotReadyFor i s) :
      Ending w s (s.raise .notReady) (rspWord CmdError.notReady.code 0x00#8)
  /-- no error -/
  | ok (i : Instr) (legal : decode w = .ok i) (ready : ¬ NotReadyFor i s) (t : State) (d : Byte) :
      Ending w s t (rspWord 0x0#4 d)

theorem Effect.ending {w : CmdWord} {i : Instr} {s t : State} (h : Effect i s t) (legal : decode w = .ok i) :
    ∃ r, t.rsp = some r ∧ Ending w s t r := by
  cases h with
  | answer d _ ready => exact ⟨_, rfl, .ok i legal ready _ d⟩
  | notReady unready => exact ⟨_, rfl, .notReady i legal unready⟩
  | gen h => exact ⟨_, rfl, .ok i legal (by simp [h, NotReadyFor]) _ _⟩
  | wrsb j v h => exact ⟨_, rfl, .ok i legal (by simp [h, NotReadyFor]) _ _⟩
  | nla table h ht =>
    have complete : s.tv = true := (readTable_some_iff s).mp ⟨table, ht⟩
    exact ⟨_, rfl, .ok i legal (by simp [h, NotReadyFor, complete]) _ _⟩
  | srst h => exact ⟨_, rfl, .ok i legal (by simp [h, NotReadyFor]) _ _⟩

/-- Every word is performed in every state, and in one of the three ways. -/
theorem exists_ending (w : CmdWord) (s : State) :
    ∃ t r, perform w s = .next t ∧ t.rsp = some r ∧ Ending w s t r := by
  cases hd : decode w with
  | error e => exact ⟨_, _, perform_error s hd, rfl, .illegal ((illegalWord_iff_decode_error w).mpr ⟨e, hd⟩)⟩
  | ok i =>
    obtain ⟨t, ht, he⟩ := exec_effect i s
    obtain ⟨r, hr, ending⟩ := he.ending hd
    exact ⟨t, r, (perform_ok s hd).trans ht, hr, ending⟩

theorem ending_of_perform {w : CmdWord} {s t : State} {r : RspWord} (h : perform w s = .next t) (hr : t.rsp = some r) :
    Ending w s t r := by
  obtain ⟨u, q, hu, hq, ending⟩ := exists_ending w s
  obtain rfl : u = t := Host.Outcome.next.inj (hu.symm.trans h)
  obtain rfl : q = r := Option.some.inj (hq.symm.trans hr)
  exact ending

/-- R157: the code of the response says which cause there was. -/
theorem Ending.ecode_iff_cause {w : CmdWord} {s t : State} {r : RspWord} (h : Ending w s t r) :
    (rspEcode r = 0x1#4 ↔ IllegalWord w) ∧
    (rspEcode r = 0x2#4 ↔ ∃ i, decode w = .ok i ∧ NotReadyFor i s) ∧
    (rspEcode r = 0x0#4 ↔ ∃ i, decode w = .ok i ∧ ¬ NotReadyFor i s) := by
  rw [illegalWord_iff_decode_error]
  cases h with
  | illegal cause =>
    obtain ⟨e, hd⟩ := (illegalWord_iff_decode_error w).mp cause
    simp [hd, CmdError.code]
  | notReady i legal cause => simp [legal, cause, CmdError.code]
  | ok i legal ready => simp [legal, ready]

/-- `State.raise` is the one way of taking an error: a response that is not OK comes from it. -/
theorem Ending.exists_raise {w : CmdWord} {s t : State} {r : RspWord} (h : Ending w s t r) (herr : rspEcode r ≠ 0x0#4) :
    ∃ e, t = s.raise e ∧ r = rspWord e.code 0x00#8 := by
  cases h with
  | illegal => exact ⟨.illegal, rfl, rfl⟩
  | notReady => exact ⟨.notReady, rfl, rfl⟩
  | ok _ _ _ _ d => exact absurd (rspEcode_rspWord 0x0#4 d) herr

/-- Settles O39: the code follows from the way the word ends, and what an error records is what `State.raise` writes. The
example 0x60001 has a nonzero MBZ field, which makes it illegal whatever has been written. -/
theorem eachErrorIsRaisedExactlyByItsCause : Obligations.EachErrorIsRaisedExactlyByItsCause := by
  intro w s
  obtain ⟨t, r, ht, hr, ending⟩ := exists_ending w s
  obtain ⟨illegal, notReady, ok⟩ := ending.ecode_iff_cause
  refine ⟨t, r, ht, hr, illegal, notReady, ok, fun herr => ?_, fun hw _ => illegal.mpr ?_⟩
  · obtain ⟨e, rfl, rfl⟩ := ending.exists_raise herr
    simp +contextual
  · exact hw ▸ (illegalWord_iff_wf _).mpr rfl

/-- Settles O40: a response that is not OK comes from `State.raise`, which writes the two flags and the response. -/
theorem anErrorChangesOnlyTheTwoFlags : Obligations.AnErrorChangesOnlyTheTwoFlags := by
  intro w s t r hp hr herr
  obtain ⟨e, rfl, rfl⟩ := (ending_of_perform hp hr).exists_raise herr
  simp

end Sys2Proof.Machine
end

section
/-! The reset state (10_state.md R31, 70_reset_and_hazards.md R176): the ways into it, and what a host reads in it. -/

namespace Sys2Proof.Machine

theorem inResetState_respond {s : State} (h : InResetState s) (d : Byte) : InResetState (s.respond d) :=
  ⟨h.unwritten, h.sv, h.es, h.fe⟩

theorem inResetState_enterReset (s : State) : InResetState s.enterReset :=
  ⟨memRead_enterReset s, enterReset_sv s, enterReset_es s, enterReset_fe s⟩

theorem inResetState_hardReset (s : State) : InResetState s.hardReset :=
  ⟨memRead_hardReset s, hardReset_sv s, hardReset_es s, hardReset_fe s⟩

theorem inResetState_of_exec_srst {s t : State} (h : exec .srst s = .next t) : InResetState t := by
  rw [eq_of_exec h (exec_srst s)]
  exact inResetState_respond (inResetState_enterReset s) 0x00#8

/-- A command whose need is not met takes the error, whichever command it is (60_exceptions.md R156). -/
theorem exec_of_notReadyFor {i : Instr} {s : State} (h : NotReadyFor i s) : exec i s = .next (s.raise .notReady) := by
  obtain ⟨t, ht, effect⟩ := exec_effect i s
  cases effect with
  | answer d quiet ready => exact absurd h ready
  | notReady unready => exact ht
  | gen hi => subst hi; exact False.elim h
  | wrsb j v hi => subst hi; exact False.elim h
  | nla table hi hr =>
    subst hi
    have unread : s.readTable = none := (readTable_none_iff s).mpr h
    exact absurd (hr.symm.trans unread) (Option.some_ne_none table)
  | srst hi => subst hi; exact False.elim h

theorem errorEffect_of_notReadyFor {i : Instr} {s : State} (h : NotReadyFor i s) :
    ∃ t, exec i s = .next t ∧ ErrorEffect 0x2#4 s t :=
  ⟨_, exec_of_notReadyFor h, errorEffect_raise s .notReady⟩

section
variable {s : State} (h : InResetState s)
include h

theorem InResetState.written (i : Byte) : s.written i = false :=
  (written_eq_false_iff s i).mpr (h.unwritten i)

theorem InResetState.tv : s.tv = false :=
  Bool.eq_false_iff.mpr fun complete => Bool.eq_false_iff.mp (h.written 0x00#8) ((tv_iff s).mp complete 0x00#8)

theorem InResetState.statusByte : s.statusByte = 0x00#8 := by
  simp [State.statusByte, h.tv, h.sv, h.es, h.fe]

/-- The score, the maximum bias and the search over the table all want something that the reset state lacks. -/
theorem InResetState.notReadyFor_of_mem {i : Instr} (hi : i ∈ [Instr.nla, .rdsc, .rdmb]) : NotReadyFor i s := by
  simp only [List.mem_cons, List.not_mem_nil, or_false] at hi
  rcases hi with rfl | rfl | rfl
  · exact h.tv
  · exact h.sv
  · exact h.sv

end

/-- Settles O38: each way in clears all that R31 specifies, and in the reset state each reading command finds its need
unmet. -/
theorem theResetStateIsTheSameHoweverItIsReached : Obligations.TheResetStateIsTheSameHoweverItIsReached :=
  ⟨⟨fun _ => rfl, rfl, rfl, rfl⟩, inResetState_hardReset, fun _ _ => inResetState_of_exec_srst, fun _ hs =>
    ⟨hs.statusByte, fun _ hi => errorEffect_of_notReadyFor (hs.notReadyFor_of_mem hi),
      fun j => errorEffect_of_notReadyFor (i := .rdsb j) (hs.written j)⟩⟩

end Sys2Proof.Machine
end

section
/-! The round trip of the encoding (30_encoding.md R61 to R65), and the words that the specification lists. -/

namespace Sys2Proof

theorem decodeFields_fieldsOfInstr (i : Instr) : decodeFields (fieldsOfInstr i) = .ok i := by
  cases i <;> rfl

theorem decode_encode (i : Instr) : decode (encode i) = .ok i := by
  rw [encode, decode_toWord, decodeFields_fieldsOfInstr]

end Sys2Proof

namespace Sys2Proof.Machine

/-- Settles O1: a word's fields are those it was made of, and the decoder's row for a command's opcode answers that
command. -/
theorem everyCommandSurvivesEncodeThenDecode : Obligations.EveryCommandSurvivesEncodeThenDecode :=
  decode_encode

/-- Settles O2: the decoder drops no field of a word. -/
theorem aDecodedWordIsTheWordOfItsCommand : Obligations.ADecodedWordIsTheWordOfItsCommand :=
  fun _ _ => encode_of_decode

/-- Settles O5: each legal word is its command's, and the three others are evaluated. -/
theorem wordsOfTheSpecDecodeAsListed : Obligations.WordsOfTheSpecDecodeAsListed := by
  unfold Obligations.WordsOfTheSpecDecodeAsListed
  decide

end Sys2Proof.Machine
end

section
/-! The invariants of 10_state.md R32. They speak of the table with its score, and of the two error flags: a command leaves
the first alone, scores the table, or clears `SV`, which asks nothing of the score. -/

namespace Sys2Proof.Machine

/-- R32 (c). -/
def FlagsAgree (es : Bool) (fe : Nibble) : Prop :=
  (es = false ↔ fe = 0x0#4) ∧ (fe = 0x0#4 ∨ fe = 0x1#4 ∨ fe = 0x2#4)

theorem flagsAgree_clear : FlagsAgree false 0x0#4 := ⟨iff_of_true rfl rfl, .inl rfl⟩

theorem flagsAgree_code (e : CmdError) : FlagsAgree true e.code := by
  cases e <;> simp [FlagsAgree, CmdError.code]

/-- While `SV` = 0 the invariant asks nothing of `SCORE` and `MAXBIAS`. -/
theorem invariant_of_not_sv {s : State} (canonical : Memory.wf s.sbox) (sv : s.sv = false)
    (flags : FlagsAgree s.es s.fe) : Invariant s where
  canonical := canonical
  scoreNeedsTable := fun valid => by simp [sv] at valid
  scoreCurrent := fun valid => by simp [sv] at valid
  noErrorNoCode := flags.1
  codes := flags.2

/-- Settles O44: no entry is written, and `SV`, `ES` and `FE` are 0. -/
theorem theInvariantHoldsAtReset : Obligations.TheInvariantHoldsAtReset :=
  invariant_of_not_sv reset_wf rfl flagsAgree_clear

section
variable {s : State} (h : Invariant s)
include h

theorem Invariant.flagsAgree : FlagsAgree s.es s.fe := ⟨h.noErrorNoCode, h.codes⟩

/-- With the table and its score as before, the error flags decide. -/
theorem Invariant.of_kept_table {t : State} (sbox : t.sbox = s.sbox) (sv : t.sv = s.sv) (score : t.score = s.score)
    (maxBias : t.maxBias = s.maxBias) (flags : FlagsAgree t.es t.fe) : Invariant t where
  canonical := sbox ▸ h.canonical
  scoreNeedsTable := by rw [sv, tv_congr sbox]; exact h.scoreNeedsTable
  scoreCurrent := by rw [sv, readTable_congr sbox, score, maxBias]; exact h.scoreCurrent
  noErrorNoCode := flags.1
  codes := flags.2

theorem Invariant.respond (d : Byte) : Invariant (s.respond d) := h.of_kept_table rfl rfl rfl rfl h.flagsAgree

theorem Invariant.idle : Invariant s.idle := h.of_kept_table rfl rfl rfl rfl h.flagsAgree

theorem Invariant.popInput : Invariant s.popInput := h.of_kept_table rfl rfl rfl rfl h.flagsAgree

/-- The first error brings its code into `FE`, a later one finds `ES` = 1 and leaves `FE` as it was. -/
theorem Invariant.raise (e : CmdError) : Invariant (s.raise e) := by
  refine h.of_kept_table rfl rfl rfl rfl ?_
  rw [raise_es, raise_fe]
  cases hes : s.es with
  | false => exact flagsAgree_code e
  | true =>
    have flags := h.flagsAgree
    rwa [hes] at flags

theorem Invariant.genTable : Invariant s.genTable :=
  invariant_of_not_sv (genTable_wf s h.canonical) rfl h.flagsAgree

theorem Invariant.wrsb (i v : Byte) : Invariant (s.memWrite i v).clearSv :=
  invariant_of_not_sv (memWrite_wf s i v h.canonical) rfl h.flagsAgree

end

theorem invariant_enterReset (s : State) : Invariant s.enterReset :=
  invariant_of_not_sv (enterReset_wf s) rfl flagsAgree_clear

theorem invariant_hardReset (s : State) : Invariant s.hardReset :=
  invariant_of_not_sv (enterReset_wf s) rfl flagsAgree_clear

/-- No bit of the two results of the search is lost in a byte (44_nonlinearity.md R129). -/
theorem toNat_ofNat_maxBiasOf (t : Table) : (BitVec.ofNat 8 (maxBiasOf t)).toNat = maxBiasOf t := by
  rw [BitVec.toNat_ofNat, Nat.mod_eq_of_lt ((maxBiasOf_le_128 t).trans_lt (by decide))]

theorem scoreOf_le_128 (t : Table) : scoreOf t ≤ 128 := Nat.sub_le 128 _

theorem toNat_ofNat_scoreOf (t : Table) : (BitVec.ofNat 8 (scoreOf t)).toNat = scoreOf t := by
  rw [BitVec.toNat_ofNat, Nat.mod_eq_of_lt ((scoreOf_le_128 t).trans_lt (by decide))]

/-- NLA stores the score of the very table that it has read. -/
theorem Invariant.setScore {s : State} (h : Invariant s) {t : Table} (ht : s.readTable = some t) :
    Invariant (s.setScore (BitVec.ofNat 8 (scoreOf t)) (BitVec.ofNat 8 (maxBiasOf t))) where
  canonical := h.canonical
  scoreNeedsTable := fun _ => (tv_congr (setScore_sbox s _ _)).trans ((readTable_some_iff s).mp ⟨t, ht⟩)
  scoreCurrent := by
    intro _ u hu
    rw [readTable_congr (setScore_sbox s _ _), ht] at hu
    obtain rfl : t = u := Option.some.inj hu
    rw [setScore_maxBias, setScore_score, toNat_ofNat_maxBiasOf, toNat_ofNat_scoreOf]
    exact ⟨rfl, rfl, maxBiasOf_le_128 t⟩
  noErrorNoCode := h.noErrorNoCode
  codes := h.codes

theorem Effect.invariant {i : Instr} {s t : State} (effect : Effect i s t) (h : Invariant s) : Invariant t := by
  cases effect with
  | answer d _ _ => exact h.respond d
  | notReady _ => exact h.raise .notReady
  | gen _ => exact h.genTable.respond 0x00#8
  | wrsb j v _ => exact (h.wrsb j v).respond 0x00#8
  | nla t _ ht => exact (h.setScore ht).respond _
  | srst _ => exact (invariant_enterReset s).respond 0x00#8

theorem step_invariant {s t : State} (h : Invariant s) (hstep : step s = .next t) : Invariant t := by
  rcases step_cases hstep with ⟨-, rfl⟩ | ⟨rest, -, rfl⟩ | ⟨w, rest, e, -, -, rfl⟩ | ⟨w, rest, i, -, -, effect⟩
  · exact h.idle
  · exact invariant_hardReset _
  · exact h.popInput.raise .illegal
  · exact effect.invariant h.popInput

/-- Settles O45: (a) to (c) by cases on what the step does, (d) from what a step does to a written bit. -/
theorem everyStepKeepsTheInvariant : Obligations.EveryStepKeepsTheInvariant := fun _ _ h hstep =>
  ⟨step_invariant h hstep, fun noReset i hw => (step_written_iff hstep i).mpr ⟨noReset, .inl hw⟩⟩

end Sys2Proof.Machine
end

section
/-! Noninterference (10_state.md R31): every operation of the core takes two indistinguishable states to indistinguishable
ones, and what a command answers is read off the part of the state that the two share. -/

namespace Sys2Proof.Machine

/-- Two outcomes that a host cannot tell apart: next states with one response. -/
def AnswerAlike (o o' : Host.Outcome State Fault Refusal) : Prop :=
  ∃ t t', o = .next t ∧ o' = .next t' ∧ t.rsp = t'.rsp ∧ Indistinguishable t t'

/-- Two reset states are alike whatever `SCORE` and `MAXBIAS` hold in them. -/
theorem InResetState.indistinguishable {s t : State} (hs : InResetState s) (ht : InResetState t)
    (input : t.input = s.input) : Indistinguishable s t where
  table := fun i => (ht.unwritten i).trans (hs.unwritten i).symm
  sv := ht.sv.trans hs.sv.symm
  es := ht.es.trans hs.es.symm
  fe := ht.fe.trans hs.fe.symm
  score := fun valid => by simp [hs.sv] at valid
  maxBias := fun valid => by simp [hs.sv] at valid
  input := input

section
variable {s s' : State} (h : Indistinguishable s s')
include h

theorem Indistinguishable.written (i : Byte) : s'.written i = s.written i := by
  rw [State.written, h.table, State.written]

theorem Indistinguishable.tv : s'.tv = s.tv := by
  rw [Bool.eq_iff_iff, tv_iff, tv_iff]
  simp only [h.written]

theorem Indistinguishable.statusByte : s'.statusByte = s.statusByte := by
  simp only [State.statusByte, h.fe, h.es, h.sv, h.tv]

theorem Indistinguishable.readTable : s'.readTable = s.readTable := by
  cases hr : s.readTable with
  | none => exact (readTable_none_iff s').mpr (h.tv.trans ((readTable_none_iff s).mp hr))
  | some t =>
    have entries (i : Byte) : s.memRead i = some (t.entry i) := memRead_of_readTable hr i
    rw [readTable_of_memRead fun i => (h.table i).trans (entries i), ← readTable_of_memRead entries, hr]

theorem Indistinguishable.respond (d : Byte) : Indistinguishable (s.respond d) (s'.respond d) :=
  ⟨h.table, h.sv, h.es, h.fe, h.score, h.maxBias, h.input⟩

theorem Indistinguishable.idle : Indistinguishable s.idle s'.idle :=
  ⟨h.table, h.sv, h.es, h.fe, h.score, h.maxBias, h.input⟩

theorem Indistinguishable.popInput : Indistinguishable s.popInput s'.popInput :=
  ⟨h.table, h.sv, h.es, h.fe, h.score, h.maxBias, congrArg List.tail h.input⟩

theorem Indistinguishable.raise (e : CmdError) : Indistinguishable (s.raise e) (s'.raise e) :=
  ⟨h.table, h.sv, rfl, by simp only [raise_fe, h.es, h.fe], h.score, h.maxBias, h.input⟩

theorem Indistinguishable.setScore (score maxBias : Byte) :
    Indistinguishable (s.setScore score maxBias) (s'.setScore score maxBias) :=
  ⟨h.table, rfl, h.es, h.fe, fun _ => rfl, fun _ => rfl, h.input⟩

theorem Indistinguishable.genTable : Indistinguishable s.genTable s'.genTable where
  table := fun i => by rw [memRead_genTable, memRead_genTable]
  sv := rfl
  es := h.es
  fe := h.fe
  score := fun valid => by simp at valid
  maxBias := fun valid => by simp at valid
  input := h.input

theorem Indistinguishable.wrsb (i v : Byte) :
    Indistinguishable (s.memWrite i v).clearSv (s'.memWrite i v).clearSv where
  table := fun j => by
    by_cases hj : j = i
    · subst hj
      rw [memRead_clearSv, memRead_clearSv, memRead_memWrite_same, memRead_memWrite_same]
    · rw [memRead_clearSv, memRead_clearSv, memRead_memWrite_other s' v hj, memRead_memWrite_other s v hj, h.table]
  sv := rfl
  es := h.es
  fe := h.fe
  score := fun valid => by simp at valid
  maxBias := fun valid => by simp at valid
  input := h.input

theorem Indistinguishable.enterReset : Indistinguishable s.enterReset s'.enterReset :=
  (inResetState_enterReset s).indistinguishable (inResetState_enterReset s') h.input

theorem Indistinguishable.hardReset : Indistinguishable s.hardReset s'.hardReset :=
  (inResetState_hardReset s).indistinguishable (inResetState_hardReset s') h.input

theorem Indistinguishable.answerAlike_respond (d : Byte) : AnswerAlike (.next (s.respond d)) (.next (s'.respond d)) :=
  ⟨_, _, rfl, rfl, rfl, h.respond d⟩

theorem Indistinguishable.answerAlike_raise (e : CmdError) : AnswerAlike (.next (s.raise e)) (.next (s'.raise e)) :=
  ⟨_, _, rfl, rfl, rfl, h.raise e⟩

/-- RDSC and RDMB are the commands that read an unspecified register, and only while `SV` = 1. -/
theorem Indistinguishable.exec (i : Instr) : AnswerAlike (exec i s) (exec i s') := by
  cases i with
  | gfadd a b => exact h.answerAlike_respond _
  | gfmul a b => exact h.answerAlike_respond _
  | gfinv a => exact h.answerAlike_respond _
  | affine a => exact h.answerAlike_respond _
  | gen => exact h.genTable.answerAlike_respond 0x00#8
  | wrsb j v => exact (h.wrsb j v).answerAlike_respond 0x00#8
  | srst => exact h.enterReset.answerAlike_respond 0x00#8
  | rdst =>
    rw [exec_rdst, exec_rdst, h.statusByte]
    exact h.answerAlike_respond _
  | rdsb j =>
    cases hr : s.memRead j with
    | none =>
      rw [exec_rdsb_none hr, exec_rdsb_none ((h.table j).trans hr)]
      exact h.answerAlike_raise .notReady
    | some v =>
      rw [exec_rdsb_some hr, exec_rdsb_some ((h.table j).trans hr)]
      exact h.answerAlike_respond v
  | nla =>
    cases hr : s.readTable with
    | none =>
      rw [exec_nla_none hr, exec_nla_none (h.readTable.trans hr)]
      exact h.answerAlike_raise .notReady
    | some t =>
      rw [exec_nla_some hr, exec_nla_some (h.readTable.trans hr)]
      exact (h.setScore _ _).answerAlike_respond _
  | rdsc =>
    cases hv : s.sv with
    | false =>
      rw [exec_rdsc_invalid hv, exec_rdsc_invalid (h.sv.trans hv)]
      exact h.answerAlike_raise .notReady
    | true =>
      rw [exec_rdsc_valid hv, exec_rdsc_valid (h.sv.trans hv), h.score hv]
      exact h.answerAlike_respond _
  | rdmb =>
    cases hv : s.sv with
    | false =>
      rw [exec_rdmb_invalid hv, exec_rdmb_invalid (h.sv.trans hv)]
      exact h.answerAlike_raise .notReady
    | true =>
      rw [exec_rdmb_valid hv, exec_rdmb_valid (h.sv.trans hv), h.maxBias hv]
      exact h.answerAlike_respond _

theorem Indistinguishable.perform (w : CmdWord) : AnswerAlike (perform w s) (perform w s') := by
  cases hd : decode w with
  | error e =>
    rw [perform_error s hd, perform_error s' hd]
    exact h.answerAlike_raise .illegal
  | ok i =>
    rw [perform_ok s hd, perform_ok s' hd]
    exact h.exec i

theorem Indistinguishable.step : AnswerAlike (step s) (step s') := by
  cases hin : s.input with
  | nil =>
    rw [step_idle hin, step_idle (h.input.trans hin)]
    exact ⟨_, _, rfl, rfl, rfl, h.idle⟩
  | cons a rest =>
    rw [step_action hin, step_action (h.input.trans hin)]
    cases a with
    | command w => exact h.popInput.perform w
    | hardReset => exact ⟨_, _, rfl, rfl, rfl, h.popInput.hardReset⟩

end

/-- Settles O46: `SCORE` and `MAXBIAS` are answered only while `SV` = 1, when the two states agree on them, and whatever
sets `SV` writes both. -/
theorem unspecifiedContentsAreNeverObservable : Obligations.UnspecifiedContentsAreNeverObservable :=
  fun _ _ h => h.step

end Sys2Proof.Machine
end

section
/-! The response to a command (30_encoding.md section 3), and one step of the core (00_scope.md R8, 60_exceptions.md
R171, 70_reset_and_hazards.md R175, R182). -/

namespace Sys2Proof.Machine

/-- `{ecode, data}` as a number. -/
theorem toNat_rspWord (e : Nibble) (d : Byte) : (rspWord e d).toNat = e.toNat * 256 + d.toNat := by
  rw [rspWord, BitVec.toNat_append, ← Nat.shiftLeft_add_eq_or_of_lt d.isLt, Nat.shiftLeft_eq]

/-- The response has one of the codes of R67, and data with OK only. -/
theorem Ending.ecode_and_data {w : CmdWord} {s t : State} {r : RspWord} (h : Ending w s t r) :
    (rspEcode r = 0x0#4 ∨ rspEcode r = 0x1#4 ∨ rspEcode r = 0x2#4) ∧ (rspEcode r ≠ 0x0#4 → rspData r = 0x00#8) := by
  cases h with
  | illegal _ => simp [CmdError.code]
  | notReady _ _ _ => simp [CmdError.code]
  | ok _ _ _ _ d => simp

/-- Settles O6: the fields of a response word are its two halves, and each ending of a command has its code. -/
theorem everyCommandGetsOneResponseOfTheThreeCodes : Obligations.EveryCommandGetsOneResponseOfTheThreeCodes := by
  refine ⟨fun e d => ⟨toNat_rspWord e d, rspEcode_rspWord e d, rspData_rspWord e d⟩, fun w s => ?_⟩
  obtain ⟨t, r, ht, hr, ending⟩ := exists_ending w s
  exact ⟨t, r, ht, hr, ending.ecode_and_data⟩

theorem exists_response_of_perform (w : CmdWord) (s : State) : ∃ t r, perform w s = .next t ∧ t.rsp = some r := by
  obtain ⟨t, r, ht, hr, -⟩ := exists_ending w s
  exact ⟨t, r, ht, hr⟩

theorem perform_encode (i : Instr) (s : State) : perform (encode i) s = exec i s :=
  perform_ok s (decode_encode i)

theorem exists_step (s : State) : ∃ t, step s = .next t := by
  cases hin : s.input with
  | nil => exact ⟨_, step_idle hin⟩
  | cons a rest =>
    cases a with
    | hardReset => exact ⟨_, step_hardReset hin⟩
    | command w =>
      obtain ⟨t, -, ht, -⟩ := exists_response_of_perform w s.popInput
      exact ⟨t, (step_command hin).trans ht⟩

/-- Settles O9: a command is performed as its word is, and every word is answered. -/
theorem everyCommandCompletesWithAResponse : Obligations.EveryCommandCompletesWithAResponse :=
  ⟨fun i s => perform_encode i s ▸ exists_response_of_perform (encode i) s, exists_response_of_perform, exists_step⟩

theorem popInput_eq {s : State} {a : HostAction} {rest : List HostAction} (h : s.input = a :: rest) :
    s.popInput = { s with input := rest } := by
  rw [State.popInput, h, List.tail_cons]

theorem step_presentWord (s : State) (w : CmdWord) : step (s.presentWord w) = perform w s :=
  step_command (presentWord_input s w)

theorem decode_wordOfBits {nbits w : Nat} {i : Instr} (h : decodeTableWord nbits w = some i) :
    decode (wordOfBits nbits w) = .ok i := by
  unfold decodeTableWord at h
  split at h
  · cases hd : decode (wordOfBits nbits w) <;> simp_all [Except.toOption]
  · cases h

/-- Settles O7: the step hands the presented word to `perform`, and takes the action off. -/
theorem aStepRunsTheDecodedCommand : Obligations.AStepRunsTheDecodedCommand := by
  refine ⟨fun s w rest i hin hd => ?_, fun s w rest hin hd => ?_, fun s nbits w i h => ?_⟩
  · rw [step_command hin, perform_ok _ hd, popInput_eq hin]
  · cases hw : decode w with
    | ok i => exact absurd hw (hd i)
    | error e => rw [step_command hin, perform_error _ hw, popInput_eq hin]
  · rw [State.withFetchWord, step_presentWord, perform_ok s (decode_wordOfBits h)]

theorem unchanged_idle (s : State) : Unchanged s s.idle :=
  ⟨memRead_idle s, rfl, rfl, rfl, rfl, rfl, rfl⟩

/-- Settles O8: the two steps that perform no command. -/
theorem idleKeepsTheStateAndHardResetTakesTheResetState :
    Obligations.IdleKeepsTheStateAndHardResetTakesTheResetState := by
  refine ⟨fun s hin => ⟨_, step_idle hin, unchanged_idle s, rfl⟩, fun s rest hin => ?_⟩
  refine ⟨_, step_hardReset hin, inResetState_hardReset _, rfl, ?_⟩
  rw [hardReset_input, popInput_input, hin, List.tail_cons]

end Sys2Proof.Machine
end

section
/-! The laws of multiplication and the command GFMUL (40_field_arithmetic.md R83, R85). -/

namespace Sys2Proof.Machine

/-- Settles O13: distributivity is that of the multiplier's loop over exclusive or; the other laws follow from it and
from the products of single bits. -/
theorem fieldMultiplicationLaws : Obligations.FieldMultiplicationLaws := fun a b c =>
  ⟨gfMul_comm a b, gfMul_xor_right a b c, gfMul_assoc a b c, gfMul_one a, gfMul_zero a⟩

/-- A nonzero factor can be divided out. -/
theorem gfMul_eq_zero_iff (a b : Byte) : gfMul a b = 0x00#8 ↔ a = 0x00#8 ∨ b = 0x00#8 := by
  constructor
  · intro h
    by_cases ha : a = 0x00#8
    · exact .inl ha
    · right
      calc b = gfMul (gfMul (gfInv a) a) b := by rw [gfMul_comm (gfInv a), gfMul_gfInv ha, one_gfMul]
        _ = 0x00#8 := by rw [gfMul_assoc, h, gfMul_zero]
  · rintro (rfl | rfl)
    · exact zero_gfMul b
    · exact gfMul_zero a

theorem encode_gfmul (a b : Byte) :
    encode (.gfmul a b) = BitVec.ofNat 20 (0x20000 + a.toNat * 256 + b.toNat) := by
  simp [encode, fieldsOfInstr, toWord_eq_ofNat]

/-- Settles O12: a product is zero only with an operand, as the field has inverses, and the listed products are
evaluated. -/
theorem gfmulAnswersTheProductAndWritesNothing : Obligations.GfmulAnswersTheProductAndWritesNothing :=
  ⟨encode_gfmul, answersOnly_gfmul, gfMul_eq_zero_iff, by decide, by decide,
    fun s => perform_answer (by decide) (answersOnly_gfmul 0x57#8 0x83#8 s)⟩

end Sys2Proof.Machine
end

section
/-! Square-and-multiply (41_inverse.md R93): the schedule walks through powers of the element, and the exponents it meets
are the leading parts of 254. -/

namespace Sys2Proof.Machine

/-- What one step of the schedule, at bit `k` of 254, makes of the exponent reached so far. -/
def nextExponent (n k : Nat) : Nat := if (254#8 : Byte).getLsbD k then n + n + 1 else n + n

theorem gfPow_nextExponent (a : Byte) (n k : Nat) :
    gfPow a (nextExponent n k) =
      if (254#8 : Byte).getLsbD k then gfMul (gfMul (gfPow a n) (gfPow a n)) a else gfMul (gfPow a n) (gfPow a n) := by
  rw [← gfPow_add, nextExponent, apply_ite (gfPow a), gfPow]

theorem gfInvSquareMultiply_eq_gfInv (a : Byte) : gfInvSquareMultiply a = gfInv a := by
  have exponent : [7, 6, 5, 4, 3, 2, 1, 0].foldl nextExponent 0 = 254 := by decide
  calc gfInvSquareMultiply a
    _ = gfPow a ([7, 6, 5, 4, 3, 2, 1, 0].foldl nextExponent 0) :=
      List.foldl_hom (gfPow a) (init := 0) fun n k => (gfPow_nextExponent a n k).symm
    _ = gfInv a := by rw [exponent, gfInv]

/-- Settles O17: the last exponent that the schedule meets is 254. -/
theorem squareAndMultiplyGivesTheSameInverse : Obligations.SquareAndMultiplyGivesTheSameInverse :=
  gfInvSquareMultiply_eq_gfInv

end Sys2Proof.Machine
end

section
/-! The tables of 42_affine.md R103 and 43_sbox_generator.md R112: an S-box is inversion followed by an affine map, and both
are bijections. -/

namespace Sys2Proof.Machine

theorem variantEntry_bijective (c : Byte) : Function.Bijective (variantEntry c) :=
  (affineC_bijective c).comp gfInv_involutive.bijective

theorem sboxEntry_eq_variantEntry (i : Byte) : sboxEntry i = variantEntry Config.affineConstant i := by
  rw [sboxEntry, affineMap, variantEntry]

/-- The two tables differ by the constant. -/
theorem variantEntry_zero (i : Byte) : variantEntry 0x00#8 i = sboxEntry i ^^^ 0x63#8 := by
  rw [sboxEntry_eq_variantEntry, variantEntry, variantEntry, affineC_eq_xor _ Config.affineConstant,
    Config.affineConstant, BitVec.xor_assoc, BitVec.xor_self, BitVec.xor_zero]

/-- Settles O21: its entries are those of the generated table without the constant. -/
theorem theVariantTableIsAPermutationWithoutTheSpotValues :
    Obligations.TheVariantTableIsAPermutationWithoutTheSpotValues := by
  refine ⟨fun x => by rw [affineMap, Config.affineConstant], affineC_zero _, by decide, variantEntry_bijective _, ?_, ?_,
    variantEntry_zero⟩
  · rw [variantEntry_zero, sboxEntry_zero, BitVec.xor_self]
  · rw [variantEntry_zero, sboxEntry_one]
    decide

theorem sboxEntry_bijective : Function.Bijective sboxEntry :=
  funext sboxEntry_eq_variantEntry ▸ variantEntry_bijective _

theorem allBytes_getElem? (i : Byte) : allBytes[i.toNat]? = some i := by
  rw [allBytes, List.getElem?_map, List.getElem?_range i.isLt, Option.map_some, BitVec.ofNat_toNat, BitVec.setWidth_eq]

/-- The listed table, evaluated by the 13 products of the square-and-multiply schedule in place of 254. -/
theorem listedSbox_eq_map : listedSbox = allBytes.map fun i => (sboxEntry i).toNat := by
  simp only [sboxEntry, ← gfInvSquareMultiply_eq_gfInv]
  decide +kernel

theorem listedSbox_getElem? (i : Byte) : listedSbox[i.toNat]? = some (sboxEntry i).toNat := by
  rw [listedSbox_eq_map, List.getElem?_map, allBytes_getElem?, Option.map_some]

/-- Settles O23: a composition of bijections, and the listed table evaluated. -/
theorem theGeneratedTableIsTheListedPermutation : Obligations.TheGeneratedTableIsTheListedPermutation :=
  ⟨sboxEntry_bijective, sboxEntry_zero, sboxEntry_one, sboxEntry_0x53, by decide +kernel, listedSbox_getElem?⟩

end Sys2Proof.Machine
end

section
/-! The inner product over GF(2)^8 (00_scope.md R12) and counts over all 256 bytes: the product is additive, no byte but 0 is
orthogonal to all, every additive map has an adjoint, and a count does not change under a permutation of the bytes. -/

namespace Sys2Proof.Machine

theorem dot_comm (m x : Byte) : dot m x = dot x m := by
  rw [dot, BitVec.and_comm, dot]

theorem dot_xor_right (m x y : Byte) : dot m (x ^^^ y) = (dot m x ^^ dot m y) := by
  simp only [dot, BitVec.and_comm m, parity8_xor_and]

theorem dot_single (m : Byte) (i : Fin 8) : dot m (0x01#8 <<< i.val) = m.getLsbD i.val := by
  rw [dot_comm]
  fin_cases i <;> simp [dot, parity8]

theorem exists_dot_eq_true {m : Byte} (h : m ≠ 0x00#8) : ∃ x, dot m x = true := by
  by_contra none
  refine h (BitVec.eq_of_getLsbD_eq fun i hi => ?_)
  have clear : dot m (0x01#8 <<< i) = false := Bool.eq_false_iff.mpr fun set => none ⟨_, set⟩
  rw [← dot_single m ⟨i, hi⟩, clear, BitVec.getLsbD_zero]

/-- The transpose of a map, bit by bit. -/
def adjoint (f : Byte → Byte) (m : Byte) : Byte := byteOfBits fun i => dot m (f (0x01#8 <<< i))

theorem dot_adjoint {f : Byte → Byte} (additive : ∀ x y, f (x ^^^ y) = f x ^^^ f y) (m x : Byte) :
    dot (adjoint f m) x = dot m (f x) := by
  induction x using byte_induction with
  | xor x y hx hy => rw [dot_xor_right, hx, hy, additive, dot_xor_right]
  | basis i => rw [dot_single, adjoint, getLsbD_byteOfBits _ i.isLt]

theorem nodup_allBytes : allBytes.Nodup := by
  rw [allBytes_eq_finRange]
  exact (List.nodup_finRange 256).map fun x y h => congrArg BitVec.toFin h

theorem countP_allBytes_comp {f : Byte → Byte} (hf : Function.Bijective f) (p : Byte → Bool) :
    allBytes.countP (fun x => p (f x)) = allBytes.countP p := by
  have perm : (allBytes.map f).Perm allBytes := by
    refine (List.perm_ext_iff_of_nodup (nodup_allBytes.map hf.injective) nodup_allBytes).mpr fun y => ?_
    obtain ⟨x, rfl⟩ := hf.surjective y
    exact iff_of_true (List.mem_map_of_mem (mem_allBytes x)) (mem_allBytes _)
  exact List.countP_map.symm.trans (perm.countP_eq p)

theorem countP_allBytes_not (p : Byte → Bool) : allBytes.countP p + allBytes.countP (fun x => !p x) = 256 := by
  have split := List.length_eq_countP_add_countP p (l := allBytes)
  simpa [allBytes] using split.symm

theorem xor_right_bijective (e : Byte) : Function.Bijective (· ^^^ e : Byte → Byte) :=
  Function.Involutive.bijective fun x => by rw [BitVec.xor_assoc, BitVec.xor_self, BitVec.xor_zero]

/-- Adding a byte of inner product 1 swaps the inputs where the product is `b` with those where it is not. -/
theorem countP_dot {u : Byte} (h : u ≠ 0x00#8) (b : Bool) : allBytes.countP (fun x => dot u x == b) = 128 := by
  obtain ⟨e, he⟩ := exists_dot_eq_true h
  have swap : allBytes.countP (fun x => !(dot u x == b)) = allBytes.countP (fun x => dot u x == b) := by
    rw [← countP_allBytes_comp (xor_right_bijective e)]
    refine List.countP_congr fun x _ => ?_
    rw [dot_xor_right, he]
    cases dot u x <;> cases b <;> decide
  have total := countP_allBytes_not fun x => dot u x == b
  omega

end Sys2Proof.Machine
end

section
/-! The corner cases of the score (44_nonlinearity.md R129). -/

namespace Sys2Proof.Machine

theorem scoreOf_of_maxBiasOf {t : Table} {b : Nat} (h : maxBiasOf t = b) : scoreOf t = 128 - b := by
  rw [scoreOf, h]

/-- A constant output is met by half of the inputs of each nonzero mask. -/
theorem maxBiasOf_constant {t : Table} {c : Byte} (h : ∀ x, t.entry x = c) : maxBiasOf t = 0 := by
  refine Nat.le_zero.mp ((maxBiasOf_le_iff t 0).mpr fun u v hu _ => ?_)
  have half : matchCount t u v = 128 := by simp only [matchCount, h, countP_dot hu]
  simp [bias_eq_distance, half, distance]

theorem maxBiasOf_identity {t : Table} (h : ∀ x, t.entry x = x) : maxBiasOf t = 128 := by
  refine (maxBiasOf_le_128 t).antisymm ?_
  have all : matchCount t 0x01#8 0x01#8 = 256 := by
    simp [matchCount, h, allBytes]
  calc 128 = bias t 0x01#8 0x01#8 := by simp [bias_eq_distance, all, distance]
    _ ≤ maxBiasOf t := bias_le_maxBiasOf t (by decide) (by decide)

/-- Settles O30: a constant table has no biased mask pair, and equal masks on the identity have the largest bias. -/
theorem constantAndIdentityTablesScore128And0 : Obligations.ConstantAndIdentityTablesScore128And0 :=
  ⟨fun _ _ h => ⟨scoreOf_of_maxBiasOf (maxBiasOf_constant h), maxBiasOf_constant h⟩,
    fun _ h => ⟨scoreOf_of_maxBiasOf (maxBiasOf_identity h), maxBiasOf_identity h⟩⟩

end Sys2Proof.Machine
end

section
/-! The commands NLA, RDSC and RDMB (44_nonlinearity.md section 2). -/

namespace Sys2Proof.Machine

/-- Settles O31: the table that NLA reads is the memory's, and both results fit a byte. -/
theorem nlaScoresTheCurrentTable : Obligations.NlaScoresTheCurrentTable := by
  refine ⟨by decide, fun s htv => ?_,
    fun s htv => ⟨_, exec_of_notReadyFor (i := .nla) htv, errorEffect_raise s .notReady, rfl⟩,
    fun a b s hab => raisesIllegal_of_nonzero_ab (op := 0x8#4) (by decide) hab s⟩
  obtain ⟨tab, htab⟩ := (readTable_some_iff s).mpr htv
  exact ⟨_, tab, exec_nla_some htab, memRead_of_readTable htab, toNat_ofNat_scoreOf tab, toNat_ofNat_maxBiasOf tab,
    rfl, rfl, fun _ => rfl, rfl, rfl, rfl⟩

/-- Settles O33: the two commands differ in the register alone. -/
theorem rdscAndRdmbAnswerTheirRegisterWhileValid : Obligations.RdscAndRdmbAnswerTheirRegisterWhileValid := by
  refine ⟨by decide, by decide, fun s hv => answersOnly_of_respond (exec_rdsc_valid hv),
    fun s hv => answersOnly_of_respond (exec_rdmb_valid hv),
    fun s hv => ⟨_, exec_rdsc_invalid hv, errorEffect_raise s .notReady, rfl⟩,
    fun s hv => ⟨_, exec_rdmb_invalid hv, errorEffect_raise s .notReady, rfl⟩, fun a b s hab => ⟨?_, ?_⟩⟩
  · exact raisesIllegal_of_nonzero_ab (op := 0x9#4) (by decide) hab s
  · exact raisesIllegal_of_nonzero_ab (op := 0xA#4) (by decide) hab s

/-- Settles O34: R32 (b), for the table that `SV` = 1 says is complete. -/
theorem scoreAndMaximumBiasReadOutSumTo128 : Obligations.ScoreAndMaximumBiasReadOutSumTo128 := by
  intro s h hv
  obtain ⟨t, ht⟩ := (readTable_some_iff s).mpr (h.scoreNeedsTable hv)
  obtain ⟨-, score, bound⟩ := h.scoreCurrent hv t ht
  refine ⟨_, _, _, _, exec_rdsc_valid hv, rfl, exec_rdmb_valid hv, rfl, rspEcode_rspWord _ _, rspEcode_rspWord _ _, ?_⟩
  rw [rspData_rspWord, rspData_rspWord, score, Nat.sub_add_cancel bound]

end Sys2Proof.Machine
end

section
/-! The score of the generated table (44_nonlinearity.md R134). Multiplying the inputs by an element of the field carries the
biases of one output mask to those of another, so all nonzero output masks have the same maximum bias, and the transform of
one of the 255 truth tables finds it. -/

namespace Sys2Proof.Machine

@[simp] theorem entry_sboxGen (x : Byte) : sboxGen.entry x = sboxEntry x := by
  simp [sboxGen, Table.entry, Vector.get_eq_getElem]

theorem gfPow_gfMul (a b : Byte) (n : Nat) : gfPow (gfMul a b) n = gfMul (gfPow a n) (gfPow b n) := by
  induction n with
  | zero => rw [gfPow, gfPow, gfPow, gfMul_one]
  | succ n ih =>
    calc gfMul (gfPow (gfMul a b) n) (gfMul a b)
      _ = gfMul (gfPow a n) (gfMul (gfMul (gfPow b n) a) b) := by rw [ih, gfMul_assoc, gfMul_assoc]
      _ = gfMul (gfMul (gfPow a n) a) (gfMul (gfPow b n) b) := by
        rw [gfMul_comm (gfPow b n) a, gfMul_assoc a, ← gfMul_assoc (gfPow a n)]

theorem gfInv_gfMul (a b : Byte) : gfInv (gfMul a b) = gfMul (gfInv a) (gfInv b) := gfPow_gfMul a b 254

theorem gfMul_bijective {c : Byte} (h : c ≠ 0x00#8) : Function.Bijective (gfMul c) := by
  refine Function.bijective_iff_has_inverse.mpr ⟨gfMul (gfInv c), fun x => ?_, fun x => ?_⟩
  · rw [← gfMul_assoc, gfMul_comm (gfInv c), gfMul_gfInv h, one_gfMul]
  · rw [← gfMul_assoc, gfMul_gfInv h, one_gfMul]

/-- The linear part of an entry whose inverse has been multiplied by `d`. -/
def scaledLinear (d z : Byte) : Byte := affineLinear (gfMul d z)

theorem dot_adjoint_scaledLinear (d v z : Byte) :
    dot (adjoint (scaledLinear d) v) z = dot v (scaledLinear d z) :=
  dot_adjoint (fun x y => by simp only [scaledLinear, gfMul_xor_right, affineLinear_xor]) v z

/-- Two multipliers with one functional differ by an element that the mask `v` cannot see, so they are equal. -/
theorem adjoint_scaledLinear_injective {v : Byte} (hv : v ≠ 0x00#8) :
    Function.Injective fun d => adjoint (scaledLinear d) v := by
  intro d e same
  by_contra differ
  have nonzero : d ^^^ e ≠ 0x00#8 := fun h => differ (BitVec.xor_eq_zero_iff.mp h)
  obtain ⟨x, hx⟩ := exists_dot_eq_true hv
  obtain ⟨z, rfl⟩ := (affineLinear_bijective.comp (gfMul_bijective nonzero)).surjective x
  have equal : dot v (scaledLinear d z) = dot v (scaledLinear e z) := by
    rw [← dot_adjoint_scaledLinear, ← dot_adjoint_scaledLinear]
    exact congrArg (dot · z) same
  have zero : dot v (affineLinear (gfMul (d ^^^ e) z)) = false := by
    rw [gfMul_xor_left, affineLinear_xor, dot_xor_right, ← scaledLinear, ← scaledLinear, equal, Bool.xor_self]
  exact Bool.false_ne_true (zero.symm.trans hx)

/-- As an injection of the 256 bytes is onto, some multiplier turns the functional of `v` into that of `v'`. -/
theorem exists_multiplier {v v' : Byte} (hv : v ≠ 0x00#8) (hv' : v' ≠ 0x00#8) :
    ∃ d, d ≠ 0x00#8 ∧ ∀ z, dot v (scaledLinear d z) = dot v' (affineLinear z) := by
  obtain ⟨d, hd⟩ := Finite.surjective_of_injective (adjoint_scaledLinear_injective hv) (adjoint affineLinear v')
  have same (z : Byte) : dot v (scaledLinear d z) = dot v' (affineLinear z) := by
    rw [← dot_adjoint_scaledLinear, ← dot_adjoint affineLinear_xor]
    exact congrArg (dot · z) hd
  refine ⟨d, fun zero => ?_, same⟩
  obtain ⟨x, hx⟩ := exists_dot_eq_true hv'
  obtain ⟨z, rfl⟩ := affineLinear_bijective.surjective x
  have orthogonal : dot v (scaledLinear d z) = false := by
    rw [zero, scaledLinear, zero_gfMul, affineLinear, affineC_zero]
    simp [dot, parity8]
  exact Bool.false_ne_true (orthogonal.symm.trans ((same z).trans hx))

/-- A permutation of the inputs keeps the bias where it turns one pair of masks into another, up to a constant. -/
theorem bias_eq_of_permuted {t : Table} {u v u' v' : Byte} {f : Byte → Byte} (hf : Function.Bijective f) (k : Bool)
    (hin : ∀ x, dot u (f x) = dot u' x) (hout : ∀ x, dot v (t.entry (f x)) = (dot v' (t.entry x) ^^ k)) :
    bias t u v = bias t u' v' := by
  have count : matchCount t u v = allBytes.countP fun x => dot u' x == (dot v' (t.entry x) ^^ k) := by
    rw [matchCount, ← countP_allBytes_comp hf]
    simp only [hin, hout]
  cases k with
  | false =>
    simp only [Bool.xor_false] at count
    rw [bias_eq_distance, count, ← matchCount, bias_eq_distance]
  | true =>
    have flipped : ∀ a b : Bool, (a == (b ^^ true)) = !(a == b) := by decide
    have total : matchCount t u' v' + _ = 256 := countP_allBytes_not _
    simp only [flipped] at count
    rw [bias_eq_distance, bias_eq_distance, distance, distance]
    omega

theorem sboxEntry_eq_affineLinear (x : Byte) : sboxEntry x = affineLinear (gfInv x) ^^^ Config.affineConstant :=
  affineC_eq_xor (gfInv x) Config.affineConstant

theorem exists_bias_sboxGen_eq {v v' : Byte} (hv : v ≠ 0x00#8) (hv' : v' ≠ 0x00#8) (u : Byte) :
    ∃ u', bias sboxGen u v = bias sboxGen u' v' := by
  obtain ⟨d, hd, same⟩ := exists_multiplier hv hv'
  have linear (x : Byte) : dot v (affineLinear (gfInv (gfMul (gfInv d) x))) = dot v' (affineLinear (gfInv x)) := by
    rw [gfInv_gfMul, gfInv_involutive, ← scaledLinear, same]
  have cancel : ∀ a b c : Bool, (a ^^ b) = (a ^^ c ^^ (b ^^ c)) := by decide
  refine ⟨adjoint (gfMul (gfInv d)) u, bias_eq_of_permuted (gfMul_bijective (gfInv_ne_zero hd))
    (dot v Config.affineConstant ^^ dot v' Config.affineConstant) (fun x => ?_) fun x => ?_⟩
  · exact (dot_adjoint (gfMul_xor_right _) u x).symm
  · rw [entry_sboxGen, entry_sboxGen, sboxEntry_eq_affineLinear, sboxEntry_eq_affineLinear, dot_xor_right, linear,
      dot_xor_right]
    exact cancel _ _ _

/-- The transform of a truth table lists the match counts of one output mask. -/
theorem agreements_outputs_getElem? (t : Table) (u v : Byte) :
    (agreements 8 (outputs t v))[u.toNat]? = some (matchCount t u v) := by
  rw [outputs_eq, agreements_eq, matchCount_eq_agreement, List.getElem?_map, List.getElem?_range u.isLt, Option.map_some]

/-- The truth table of output mask 0x02, taken from the listed table. -/
def listedOutputs : List Bool := listedSbox.map fun n => dot 0x02#8 (BitVec.ofNat 8 n)

theorem outputs_sboxGen : outputs sboxGen 0x02#8 = listedOutputs := by
  rw [outputs_eq, listedOutputs, listedSbox_eq_map, allBytes, List.map_map, List.map_map]
  exact List.map_congr_left fun x _ => by simp

theorem agreements_listedOutputs :
    (∀ c ∈ agreements 8 listedOutputs, distance c ≤ 16) ∧ (agreements 8 listedOutputs)[0x4D]? = some 112 := by
  decide +kernel

theorem maxBiasOf_sboxGen : maxBiasOf sboxGen = 16 := by
  obtain ⟨bounded, attained⟩ := agreements_listedOutputs
  rw [← outputs_sboxGen] at bounded attained
  apply le_antisymm
  · refine (maxBiasOf_le_iff sboxGen 16).mpr fun u v _ hv => ?_
    obtain ⟨u', same⟩ := exists_bias_sboxGen_eq hv (v' := 0x02#8) (by decide) u
    rw [same, bias_eq_distance]
    exact bounded _ (List.mem_of_getElem? (agreements_outputs_getElem? sboxGen u' 0x02#8))
  · have count : 112 = matchCount sboxGen 0x4D#8 0x02#8 :=
      Option.some.inj (attained.symm.trans (agreements_outputs_getElem? sboxGen 0x4D#8 0x02#8))
    calc 16 = bias sboxGen 0x4D#8 0x02#8 := by simp [bias_eq_distance, ← count, distance]
      _ ≤ maxBiasOf sboxGen := bias_le_maxBiasOf sboxGen (by decide) (by decide)

theorem scoreOf_sboxGen : scoreOf sboxGen = 112 := scoreOf_of_maxBiasOf maxBiasOf_sboxGen

theorem readTable_genTable (s : State) : s.genTable.readTable = some sboxGen := by
  rw [readTable_of_memRead (memRead_genTable s), sboxGen]

theorem exec_nla_genTable (s : State) (d : Byte) :
    exec .nla (s.genTable.respond d) = .next (((s.genTable.respond d).setScore 112#8 16#8).respond 112#8) := by
  have read : (s.genTable.respond d).readTable = some sboxGen :=
    (readTable_congr (respond_sbox _ d)).trans (readTable_genTable s)
  rw [exec_nla_some read, scoreOf_sboxGen, maxBiasOf_sboxGen]

/-- Settles O32: NLA reads the generated table whatever was there before GEN. -/
theorem theGeneratedTableScores112 : Obligations.TheGeneratedTableScores112 :=
  ⟨scoreOf_sboxGen, maxBiasOf_sboxGen, fun s => ⟨_, _, exec_gen s, exec_nla_genTable s 0x00#8, rfl, rfl, rfl, rfl⟩⟩

end Sys2Proof.Machine
end

section
/-! The status byte (10_state.md R25) and the system commands RDST and SRST (45_system.md). -/

namespace Sys2Proof.Machine

theorem getLsbD_statusByte (s : State) : s.statusByte.getLsbD 0 = s.tv ∧ s.statusByte.getLsbD 1 = s.sv ∧
    s.statusByte.getLsbD 2 = s.es ∧ s.statusByte.getLsbD 3 = false := by
  simp only [State.statusByte, BitVec.getLsbD_append]
  simp

theorem extractLsb'_statusByte (s : State) : s.statusByte.extractLsb' 4 4 = s.fe := by
  apply BitVec.eq_of_getLsbD_eq
  intro i hi
  simp only [State.statusByte, BitVec.getLsbD_extractLsb', BitVec.getLsbD_append]
  interval_cases i <;> simp

/-- R32 (c) as the pairs that `ES` and `FE` can form. -/
theorem FlagsAgree.cases {es : Bool} {fe : Nibble} (h : FlagsAgree es fe) :
    (es = false ∧ fe = 0x0#4) ∨ (es = true ∧ fe = 0x1#4) ∨ (es = true ∧ fe = 0x2#4) := by
  obtain ⟨clear, rfl | rfl | rfl⟩ := h
  · exact .inl ⟨clear.mpr rfl, rfl⟩
  · exact .inr (.inl ⟨Bool.eq_true_of_not_eq_false fun h => absurd (clear.mp h) (by decide), rfl⟩)
  · exact .inr (.inr ⟨Bool.eq_true_of_not_eq_false fun h => absurd (clear.mp h) (by decide), rfl⟩)

/-- Settles O35: the layout bit by bit, and the values from R32 (a) and (c). -/
theorem statusByteLayoutAndItsPossibleValues : Obligations.StatusByteLayoutAndItsPossibleValues := by
  refine ⟨fun s => ?_, fun s h => ⟨h.flagsAgree.cases, h.scoreNeedsTable⟩⟩
  obtain ⟨tv, sv, es, zero⟩ := getLsbD_statusByte s
  exact ⟨tv, sv, es, zero, extractLsb'_statusByte s⟩

theorem statusByte_respond (s : State) (d : Byte) : (s.respond d).statusByte = s.statusByte := by
  rw [State.statusByte, tv_respond, respond_fe, respond_es, respond_sv, State.statusByte]

/-- Settles O36: the answer is the status byte, on which a response has no effect. -/
theorem rdstAnswersTheStatusByte : Obligations.RdstAnswersTheStatusByte := by
  refine ⟨by decide, answersOnly_rdst, fun s t h => ?_, fun s h => h.statusByte ▸ answersOnly_rdst s,
    fun a b s hab => raisesIllegal_of_nonzero_ab (op := 0xB#4) (by decide) hab s⟩
  rw [eq_of_exec h (exec_rdst s), statusByte_respond]

/-- Settles O37: `State.enterReset` clears what R31 specifies, and no other word reaches it. -/
theorem srstTakesTheResetState : Obligations.SrstTakesTheResetState :=
  ⟨by decide, fun s => ⟨_, exec_srst s, rfl, inResetState_of_exec_srst (exec_srst s), rfl⟩,
    fun _ _ s hab => raisesIllegal_of_nonzero_ab (op := 0xF#4) (by decide) hab s⟩

end Sys2Proof.Machine
end

section
/-! Which commands write each register (10_state.md R20, R23, R24, R26): a command that only answers or raises NotReady is
none of those that write, and each of these writes what its effect says. -/

namespace Sys2Proof.Machine

/-- The columns "written by", register by register, for a command `i` that takes `s` to `t`. -/
structure WritesAsNamed (i : Instr) (s t : State) : Prop where
  table : i ≠ .gen ∧ (∀ j v, i ≠ .wrsb j v) ∧ i ≠ .srst → ∀ j : Byte, t.memRead j = s.memRead j
  score : (i ≠ .nla ∨ s.tv = false) ∧ i ≠ .srst → t.score = s.score ∧ t.maxBias = s.maxBias
  svSet : i = .nla ∧ s.tv = true → t.sv = true
  svCleared : i = .gen ∨ (∃ j v, i = .wrsb j v) ∨ i = .srst → t.sv = false
  svKept : (i ≠ .nla ∨ s.tv = false) ∧ i ≠ .gen ∧ (∀ j v, i ≠ .wrsb j v) ∧ i ≠ .srst → t.sv = s.sv
  flags : i ≠ .srst ∧ ¬ NotReadyFor i s → t.es = s.es ∧ t.fe = s.fe

/-- A command that keeps the table and its score is none of those named for them. -/
theorem writesAsNamed_of_kept {i : Instr} {s t : State} (sbox : t.sbox = s.sbox) (score : t.score = s.score)
    (maxBias : t.maxBias = s.maxBias) (sv : t.sv = s.sv) (notScored : ¬ (i = .nla ∧ s.tv = true))
    (notCleared : ¬ (i = .gen ∨ (∃ j v, i = .wrsb j v) ∨ i = .srst))
    (flags : ¬ NotReadyFor i s → t.es = s.es ∧ t.fe = s.fe) : WritesAsNamed i s t where
  table := fun _ => memRead_congr sbox
  score := fun _ => ⟨score, maxBias⟩
  svSet := fun scored => absurd scored notScored
  svCleared := fun cleared => absurd cleared notCleared
  svKept := fun _ => sv
  flags := fun ⟨_, ready⟩ => flags ready

theorem Effect.writesAsNamed {i : Instr} {s t : State} (effect : Effect i s t) : WritesAsNamed i s t := by
  cases effect with
  | answer d quiet _ =>
    refine writesAsNamed_of_kept rfl rfl rfl rfl ?_ ?_ fun _ => ⟨rfl, rfl⟩
    · rintro ⟨rfl, -⟩; cases quiet
    · rintro (rfl | ⟨j, v, rfl⟩ | rfl) <;> cases quiet
  | notReady unready =>
    refine writesAsNamed_of_kept rfl rfl rfl rfl ?_ ?_ fun ready => absurd unready ready
    · rintro ⟨rfl, complete⟩; exact Bool.false_ne_true (unready.symm.trans complete)
    · rintro (rfl | ⟨j, v, rfl⟩ | rfl) <;> exact unready
  | gen h => subst h; constructor <;> simp
  | wrsb j v h => subst h; constructor <;> simp
  | nla t h ht =>
    have complete : s.tv = true := (readTable_some_iff s).mp ⟨t, ht⟩
    subst h; constructor <;> simp [complete]
  | srst h => subst h; constructor <;> simp

/-- Settles O43: by the effect of the command. -/
theorem onlyTheNamedCommandsWriteEachRegister : Obligations.OnlyTheNamedCommandsWriteEachRegister := by
  intro i s t h
  obtain ⟨table, score, svSet, svCleared, svKept, flags⟩ := (effect_of_exec h).writesAsNamed
  exact ⟨table, score, svSet, svCleared, svKept, flags⟩

end Sys2Proof.Machine
end

section
/-! The port (30_encoding.md R72 to R74, 70_reset_and_hazards.md R175), one edge at a time: what each phase of the handshake
does at an edge without reset, and what a reset edge does. -/

namespace Sys2Proof.Machine

theorem clockEdge_of_rst {i : PortIn} (h : i.rst = true) (p : Port) :
    clockEdge i p = .next { p with core := p.core.hardReset, phase := .ready } := by
  rw [clockEdge, if_pos h]

theorem clockEdge_of_not_rst {i : PortIn} (h : i.rst = false) (p : Port) : clockEdge i p = p.edge i := by
  rw [clockEdge, if_neg (by simp [h])]

theorem accepts_iff (i : PortIn) (p : Port) :
    accepts i p = true ↔ i.cmdValid = true ∧ i.rst = false ∧ p.phase = .ready := by
  simp [accepts, cmdReady]

theorem cmdReady_of_not_ready {p : Port} (h : p.phase ≠ .ready) (i : PortIn) : cmdReady i p = false := by
  simp [cmdReady, h]

theorem rspValid_of_not_responding {p : Port} (h : p.phase ≠ .responding) (i : PortIn) : rspValid i p = false := by
  simp [rspValid, h]

/-- No word is refused or faults, so the end of a wait is always a response. -/
theorem complete_eq {w : CmdWord} {p : Port} {t : State} (h : perform w p.core = .next t) :
    p.complete w = .next { p with core := t, phase := .responding } := by
  rw [Port.complete, h]

section
variable {i : PortIn} (hrst : i.rst = false) {p : Port}
include hrst

theorem clockEdge_accept (h : accepts i p = true) :
    clockEdge i p = { p with draws := p.draws + 1 }.accept i.cmd (Config.latency p.draws) := by
  have ready := ((accepts_iff i p).mp h).2.2
  rw [clockEdge_of_not_rst hrst, Port.edge, ready]
  exact if_pos h

theorem clockEdge_ready (hphase : p.phase = .ready) (h : i.cmdValid = false) : clockEdge i p = .next p := by
  rw [clockEdge_of_not_rst hrst, Port.edge, hphase]
  exact if_neg (by simp [accepts, h])

theorem clockEdge_busy_zero {w : CmdWord} (hphase : p.phase = .busy w 0) : clockEdge i p = p.complete w := by
  rw [clockEdge_of_not_rst hrst, Port.edge, hphase]

theorem clockEdge_busy_succ {w : CmdWord} {n : Nat} (hphase : p.phase = .busy w (n + 1)) :
    clockEdge i p = .next { p with phase := .busy w n } := by
  rw [clockEdge_of_not_rst hrst, Port.edge, hphase]

theorem clockEdge_responding (hphase : p.phase = .responding) :
    clockEdge i p = .next { p with phase := phaseAfter (Config.readyDelay p.draws), draws := p.draws + 1 } := by
  rw [clockEdge_of_not_rst hrst, Port.edge, hphase]

theorem clockEdge_recovering {n : Nat} (hphase : p.phase = .recovering n) :
    clockEdge i p = .next { p with phase := phaseAfter n } := by
  rw [clockEdge_of_not_rst hrst, Port.edge, hphase]

end

/-- An edge with a next port hands the later edges to it. -/
theorem clockEdges_cons {i : PortIn} {p q : Port} (h : clockEdge i p = .next q) (ins : List PortIn) :
    clockEdges (i :: ins) p = clockEdges ins q := by
  rw [clockEdges, h]

theorem clockEdges_singleton (i : PortIn) (p : Port) : clockEdges [i] p = clockEdge i p := by
  rw [clockEdges]
  cases clockEdge i p <;> rfl

end Sys2Proof.Machine
end

section
/-! From acceptance to response (30_encoding.md R73): a wait counts down, one for each edge without reset. -/

namespace Sys2Proof.Machine

/-- The port with an accepted word `w` and `n` more edges to wait. -/
def Port.waiting (p : Port) (w : CmdWord) (n : Nat) : Port := { p with phase := .busy w n }

@[simp] theorem waiting_phase (p : Port) (w : CmdWord) (n : Nat) : (p.waiting w n).phase = .busy w n := rfl

@[simp] theorem accept_zero (p : Port) (w : CmdWord) : p.accept w 0 = p.complete w := rfl
@[simp] theorem accept_succ (p : Port) (w : CmdWord) (n : Nat) : p.accept w (n + 1) = .next (p.waiting w n) := rfl
@[simp] theorem complete_waiting (p : Port) (w : CmdWord) (n : Nat) : (p.waiting w n).complete w = p.complete w := rfl

theorem clockEdge_waiting_succ {j : PortIn} (hrst : j.rst = false) (p : Port) (w : CmdWord) (n : Nat) :
    clockEdge j (p.waiting w (n + 1)) = .next (p.waiting w n) :=
  clockEdge_busy_succ hrst (waiting_phase p w (n + 1))

theorem clockEdges_waiting (p : Port) (w : CmdWord) (n : Nat) {ins : List PortIn} (hrst : ∀ j ∈ ins, j.rst = false) :
    clockEdges ins (p.waiting w (n + ins.length)) = .next (p.waiting w n) := by
  induction ins with
  | nil => rfl
  | cons j ins ih =>
    obtain ⟨hj, hins⟩ := List.forall_mem_cons.mp hrst
    rw [List.length_cons, ← Nat.add_assoc, clockEdges_cons (clockEdge_waiting_succ hj p w _), ih hins]

/-- The wait is over with the edge after the last one counted. -/
theorem clockEdges_waiting_complete (p : Port) (w : CmdWord) {j : PortIn} {ins : List PortIn}
    (hrst : ∀ k ∈ j :: ins, k.rst = false) : clockEdges (j :: ins) (p.waiting w ins.length) = p.complete w := by
  induction ins generalizing j with
  | nil =>
    obtain ⟨hj, -⟩ := List.forall_mem_cons.mp hrst
    rw [clockEdges_singleton, List.length_nil, clockEdge_busy_zero hj (waiting_phase p w 0), complete_waiting]
  | cons k ins ih =>
    obtain ⟨hj, hins⟩ := List.forall_mem_cons.mp hrst
    rw [List.length_cons, clockEdges_cons (clockEdge_waiting_succ hj p w _), ih hins]

section
variable {p q : Port} {w : CmdWord} {i : PortIn} {ins : List PortIn} (hrst : ∀ j ∈ ins, j.rst = false)
include hrst

theorem clockEdges_accept (h : clockEdge i p = q.accept w ins.length) : clockEdges (i :: ins) p = q.complete w := by
  cases ins with
  | nil => rw [clockEdges_singleton, h, List.length_nil, accept_zero]
  | cons j ins =>
    rw [List.length_cons, accept_succ] at h
    rw [clockEdges_cons h, clockEdges_waiting_complete q w hrst]

theorem clockEdges_accept_take (h : clockEdge i p = q.accept w ins.length) {k : Nat} (hk : k < ins.length) :
    ∃ n, clockEdges (i :: ins.take k) p = .next (q.waiting w n) := by
  obtain ⟨n, hn⟩ := Nat.exists_eq_add_of_lt hk
  have taken : (ins.take k).length = k := List.length_take_of_le hk.le
  have first : clockEdge i p = .next (q.waiting w (n + (ins.take k).length)) := by
    rw [h, hn, accept_succ, taken, Nat.add_comm n]
  exact ⟨n, (clockEdges_cons first _).trans
    (clockEdges_waiting q w n fun j hj => hrst j (List.mem_of_mem_take hj))⟩

end

theorem rspOut_responding {p : Port} (h : p.phase = .responding) {j : PortIn} (hrst : j.rst = false) :
    rspOut j p = p.core.rsp := by
  simp [rspOut, rspValid, h, hrst]

/-- Settles O47: the wait counts down over a port that only its phase sets apart from the accepting one, and its end
performs the word. -/
theorem anAcceptedCommandIsAnsweredByItsTransaction : Obligations.AnAcceptedCommandIsAnsweredByItsTransaction := by
  intro p i ins haccepts hrst hlen
  obtain ⟨-, hi, -⟩ := (accepts_iff i p).mp haccepts
  have edge := clockEdge_accept hi haccepts
  rw [← hlen] at edge
  constructor
  · obtain ⟨t, -, ht, -⟩ := exists_response_of_perform i.cmd p.core
    exact ⟨t, _, ht, (clockEdges_accept hrst edge).trans (complete_eq ht), rfl, rfl,
      fun j hj => rspOut_responding rfl hj⟩
  · intro k hk
    obtain ⟨n, hn⟩ := clockEdges_accept_take hrst edge hk
    exact ⟨_, hn, rfl, fun j => ⟨cmdReady_of_not_ready (by simp) j, rspValid_of_not_responding (by simp) j⟩⟩

end Sys2Proof.Machine
end

section
/-! After the response (30_encoding.md R73, 60_exceptions.md R171). -/

namespace Sys2Proof.Machine

theorem phaseAfter_ne_responding (n : Nat) : phaseAfter n ≠ .responding := by
  cases n <;> simp [phaseAfter]

/-- The port after its response, with `n` edges to go before `cmd_ready` returns. -/
def Port.resting (p : Port) (n : Nat) : Port := { p with phase := phaseAfter n }

theorem clockEdges_resting (p : Port) {ins : List PortIn} (hrst : ∀ j ∈ ins, j.rst = false) :
    clockEdges ins (p.resting ins.length) = .next (p.resting 0) := by
  induction ins with
  | nil => rfl
  | cons j ins ih =>
    obtain ⟨hj, hins⟩ := List.forall_mem_cons.mp hrst
    have edge : clockEdge j (p.resting (ins.length + 1)) = .next (p.resting ins.length) :=
      clockEdge_recovering hj rfl
    rw [List.length_cons, clockEdges_cons edge, ih hins]

/-- Settles O48: no phase after a response is a response, and the wait counts down to `ready`. -/
theorem theResponseLastsOneCycleAndThePortBecomesReady :
    Obligations.TheResponseLastsOneCycleAndThePortBecomesReady := by
  refine ⟨fun p i h => ?_, fun p ins hphase hrst hlen => ?_, fun p i => by simp [accepts, cmdReady, and_comm],
    fun p i hphase hrst hvalid => clockEdge_ready hrst hphase hvalid⟩
  · obtain ⟨hrst, hphase⟩ : i.rst = false ∧ p.phase = .responding := by simpa [rspValid] using h
    exact ⟨_, clockEdge_responding hrst hphase, rfl, rspValid_of_not_responding (phaseAfter_ne_responding _)⟩
  · cases ins with
    | nil => simp at hlen
    | cons j ins =>
      obtain ⟨hj, hins⟩ := List.forall_mem_cons.mp hrst
      have edge := clockEdge_responding hj hphase
      rw [← Nat.succ.inj hlen] at edge
      exact ⟨_, (clockEdges_cons edge ins).trans (clockEdges_resting { p with draws := p.draws + 1 } hins), rfl, rfl⟩

end Sys2Proof.Machine
end

section
/-! Hard reset at an edge (70_reset_and_hazards.md R175). -/

namespace Sys2Proof.Machine

theorem clockEdge_rst {i : PortIn} (h : i.rst = true) (p : Port) :
    ∃ q, clockEdge i p = .next q ∧ InResetState q.core ∧ q.phase = .ready :=
  ⟨_, clockEdge_of_rst h p, inResetState_hardReset p.core, rfl⟩

/-- Under `rst` = 1 each edge takes the reset state again. -/
theorem clockEdges_rst {i : PortIn} {ins : List PortIn} (h : ∀ j ∈ i :: ins, j.rst = true) (p : Port) :
    ∃ q, clockEdges (i :: ins) p = .next q ∧ InResetState q.core ∧ q.phase = .ready := by
  obtain ⟨hi, hins⟩ := List.forall_mem_cons.mp h
  induction ins generalizing i p with
  | nil => exact clockEdges_singleton i p ▸ clockEdge_rst hi p
  | cons j ins ih =>
    obtain ⟨hj, hrest⟩ := List.forall_mem_cons.mp hins
    obtain ⟨q, edge, -⟩ := clockEdge_rst hi p
    exact clockEdges_cons edge (j :: ins) ▸ ih hins q hj hrest

/-- What an accepted command is doing after the edge that accepted it. -/
theorem accept_busy_or_responding (p : Port) (w : CmdWord) (n : Nat) : ∃ q, p.accept w n = .next q ∧
    ((∃ k, q.phase = .busy w k) ∨ (q.phase = .responding ∧ perform w p.core = .next q.core)) := by
  cases n with
  | zero =>
    obtain ⟨t, -, ht, -⟩ := exists_response_of_perform w p.core
    exact ⟨_, complete_eq ht, .inr ⟨rfl, ht⟩⟩
  | succ n => exact ⟨_, accept_succ p w n, .inl ⟨n, rfl⟩⟩

/-- Settles O49: the reset edge does not look at the phase, and the port is ready after it. -/
theorem hardResetAbandonsACommandInProgress : Obligations.HardResetAbandonsACommandInProgress := by
  refine ⟨fun p i h => ?_, fun p ins nonempty h => ?_, fun p i j q hi edge hj hvalid => ?_⟩
  · refine ⟨by simp [cmdReady, h], by simp [rspValid, h], _, clockEdge_of_rst h p, inResetState_hardReset p.core, rfl, rfl,
      fun j => ⟨rspValid_of_not_responding (by simp) j, fun hj => by simp [cmdReady, hj]⟩⟩
  · cases ins with
    | nil => exact absurd rfl nonempty
    | cons j ins => exact clockEdges_rst h p
  · rw [clockEdge_of_rst hi] at edge
    cases edge
    have accepted : accepts j { p with core := p.core.hardReset, phase := .ready } = true :=
      (accepts_iff j _).mpr ⟨hvalid, hj, rfl⟩
    rw [clockEdge_accept hj accepted]
    exact ⟨accepted, accept_busy_or_responding _ j.cmd _⟩

end Sys2Proof.Machine
end

section
/-! The assembler's lines (30_encoding.md R69, R70). -/

namespace Sys2Proof.Machine

theorem assemble_gfsqr (a : Byte) : assemble (.gfsqr a.toNat) = some [encode (.gfmul a a)] := by
  simp [assemble, AsmLine.wf, a.isLt]

theorem assemble_word (w : CmdWord) : assemble (.word w.toNat) = some [w] := by
  simp [assemble, AsmLine.wf, w.isLt]

theorem assemble_wf {l : AsmLine} {ws : List CmdWord} (h : assemble l = some ws) : l.wf = true := by
  unfold assemble at h
  split at h
  · next hwf => exact hwf
  · cases h

/-- The directive apart, a line is assembled by the encoder. -/
theorem exists_encode_of_assemble {l : AsmLine} {ws : List CmdWord} (h : assemble l = some ws) (hl : ∀ n, l ≠ .word n) :
    ∀ w ∈ ws, ∃ i, encode i = w := by
  have hwf := assemble_wf h
  cases l with
  | command m ops =>
    simp only [assemble, hwf, if_true] at h
    obtain ⟨i, -, rfl⟩ := Option.map_eq_some_iff.mp h
    simp
  | word n => exact absurd rfl (hl n)
  | run =>
    cases h
    simp
  | gfsqr a =>
    simp only [assemble, hwf, if_true, Option.some.injEq] at h
    subst h
    simp

/-- Settles O50: the encoder's words are legal. -/
theorem theAssemblerEmitsLegalWordsButForItsDirective : Obligations.TheAssemblerEmitsLegalWordsButForItsDirective := by
  refine ⟨rfl, assemble_gfsqr, assemble_word, fun l ws w h hw hl => ?_⟩
  obtain ⟨i, rfl⟩ := exists_encode_of_assemble h hl w hw
  exact ⟨i, decode_encode i⟩

end Sys2Proof.Machine
end

section
/-! The text of a command (30_encoding.md R69): a mnemonic and operands, none of which holds a character that the reader
takes for the end of one. -/

namespace Sys2Proof.Machine

/-- A character that neither begins a comment nor separates words or operands. -/
def isPlain (c : Char) : Bool := c != ';' && c != ' ' && c != ','

theorem isPlain_iff (c : Char) : isPlain c = true ↔ c ≠ ';' ∧ c ≠ ' ' ∧ c ≠ ',' := by
  simp [isPlain, and_assoc]

theorem isPlain_mnemonicText (m : Mnemonic) : ∀ c ∈ mnemonicText m, isPlain c = true := by
  cases m <;> simp [mnemonicText, isPlain]

theorem digitValue_digitText {n : Nat} (h : n < 16) : digitValue (digitText n) = some n := by
  decide +revert

theorem isPlain_digitText {n : Nat} (h : n < 16) : isPlain (digitText n) = true := by
  decide +revert

theorem digits_lt (x : Byte) : x.toNat / 16 < 16 ∧ x.toNat % 16 < 16 := by
  omega

theorem isPlain_byteText (x : Byte) : ∀ c ∈ byteText x, isPlain c = true := by
  obtain ⟨high, low⟩ := digits_lt x
  simp +decide [byteText, isPlain_digitText high, isPlain_digitText low]

theorem readNumber_byteText (x : Byte) : readNumber (byteText x) = some x.toNat := by
  obtain ⟨high, low⟩ := digits_lt x
  simpa [byteText, readNumber, readNonempty, readDigits, digitValue_digitText, high, low] using
    Nat.div_add_mod x.toNat 16

/-- Operands as the assembler writes them. -/
def operandsText (ops : List Byte) : List Char := List.intercalate [',', ' '] (ops.map byteText)

theorem operandsText_singleton (x : Byte) : operandsText [x] = byteText x := by
  simp [operandsText, List.intercalate]

theorem operandsText_cons_cons (x y : Byte) (ops : List Byte) :
    operandsText (x :: y :: ops) = byteText x ++ ',' :: ' ' :: operandsText (y :: ops) := by
  simp [operandsText, List.intercalate]

theorem splitOperands_cons {c : Char} (h : c ≠ ',') (cs cur : List Char) :
    splitOperands (c :: cs) cur = splitOperands cs (c :: cur) := by
  rw [splitOperands]
  intro cs' hc
  exact absurd hc h

theorem splitOperands_plain {cs : List Char} (h : ∀ c ∈ cs, isPlain c = true) (rest cur : List Char) :
    splitOperands (cs ++ rest) cur = splitOperands rest (cs.reverse ++ cur) := by
  induction cs generalizing cur with
  | nil => rfl
  | cons c cs ih =>
    obtain ⟨hc, hcs⟩ := List.forall_mem_cons.mp h
    obtain ⟨-, -, hcomma⟩ := (isPlain_iff c).mp hc
    rw [List.cons_append, splitOperands_cons hcomma, ih hcs]
    simp

theorem splitOperands_operandsText (x : Byte) (ops : List Byte) :
    splitOperands (operandsText (x :: ops)) [] = (x :: ops).map byteText := by
  induction ops generalizing x with
  | nil =>
    rw [operandsText_singleton, ← List.append_nil (byteText x), splitOperands_plain (isPlain_byteText x)]
    simp [splitOperands]
  | cons y ops ih =>
    rw [operandsText_cons_cons, splitOperands_plain (isPlain_byteText x), splitOperands, ih]
    simp

theorem mapM_readNumber (ops : List Byte) : (ops.map byteText).mapM readNumber = some (ops.map BitVec.toNat) := by
  induction ops with
  | nil => rfl
  | cons x ops ih => simp [readNumber_byteText, ih]

/-- What stands after the mnemonic. -/
def operandField : List Byte → List Char
  | [] => []
  | x :: ops => ' ' :: operandsText (x :: ops)

theorem instrText_eq (i : Instr) :
    instrText i = mnemonicText i.mnemonic ++ operandField (writtenOperands i) := by
  rw [instrText]
  cases writtenOperands i <;> simp [operandField, operandsText]

theorem readOperands_operandField (ops : List Byte) :
    readOperands ((operandField ops).drop 1) = some (ops.map BitVec.toNat) := by
  cases ops with
  | nil => rfl
  | cons x ops =>
    have nonempty : (operandsText (x :: ops)).isEmpty = false := by
      cases ops <;> simp [operandsText_singleton, operandsText_cons_cons, byteText]
    rw [operandField, List.drop_one, List.tail_cons, readOperands, nonempty, splitOperands_operandsText, mapM_readNumber]
    simp

/-- Without a comment, and with no space at either end, a line is its body. -/
theorem stripLine_eq_self {cs : List Char} (comment : ∀ c ∈ cs, c ≠ ';') (first : ∀ c ∈ cs.head?, c ≠ ' ')
    (last : ∀ c ∈ cs.getLast?, c ≠ ' ') : stripLine cs = cs := by
  have kept {ds : List Char} (h : ∀ c ∈ ds.head?, c ≠ ' ') : ds.dropWhile (· == ' ') = ds := by
    cases ds with
    | nil => rfl
    | cons d ds => exact List.dropWhile_cons_of_neg (by simpa using h)
  have whole : cs.takeWhile (· != ';') = cs := List.takeWhile_eq_self_iff.mpr (by simpa using comment)
  rw [stripLine, whole, kept first, kept (by rwa [List.head?_reverse]), List.reverse_reverse]

theorem exists_operandsText_eq_append (x : Byte) (ops : List Byte) :
    ∃ cs c, operandsText (x :: ops) = cs ++ [c] ∧ isPlain c = true := by
  induction ops generalizing x with
  | nil =>
    have plain := isPlain_digitText (digits_lt x).2
    exact ⟨['0', 'x', digitText (x.toNat / 16)], _, operandsText_singleton x, plain⟩
  | cons y ops ih =>
    obtain ⟨cs, c, h, plain⟩ := ih y
    exact ⟨byteText x ++ ',' :: ' ' :: cs, c, by rw [operandsText_cons_cons, h]; simp, plain⟩

theorem not_semicolon_of_mem_operandsText (x : Byte) (ops : List Byte) : ∀ c ∈ operandsText (x :: ops), c ≠ ';' := by
  have operand (x : Byte) : ∀ c ∈ byteText x, c ≠ ';' := fun c hc => ((isPlain_iff c).mp (isPlain_byteText x c hc)).1
  induction ops generalizing x with
  | nil => rw [operandsText_singleton]; exact operand x
  | cons y ops ih =>
    rw [operandsText_cons_cons, List.forall_mem_append]
    exact ⟨operand x, by simpa using ih y⟩

theorem lineOf_mnemonicText (m : Mnemonic) (ops : List Nat) : lineOf (mnemonicText m) ops = .line (.command m ops) := by
  cases m <;> rfl

theorem assemble_command (i : Instr) :
    assemble (.command i.mnemonic ((writtenOperands i).map BitVec.toNat)) = some [encode i] := by
  have inRange (x : Byte) : x.toNat < 256 := x.isLt
  cases i <;> simp [assemble, AsmLine.wf, Mnemonic.arity, instrOf, Instr.mnemonic, writtenOperands, inRange]

theorem mnemonicText_ne_nil (m : Mnemonic) : mnemonicText m ≠ [] := by
  cases m <;> simp [mnemonicText]

section
variable {word : List Char} (plain : ∀ c ∈ word, isPlain c = true) (ops : List Byte)
include plain

theorem stripLine_word_operandField (nonempty : word ≠ []) :
    stripLine (word ++ operandField ops) = word ++ operandField ops := by
  refine stripLine_eq_self (List.forall_mem_append.mpr ⟨fun c hc => ((isPlain_iff c).mp (plain c hc)).1, ?_⟩) ?_ ?_
  · cases ops with
    | nil => simp [operandField]
    | cons x ops => exact List.forall_mem_cons.mpr ⟨by decide, not_semicolon_of_mem_operandsText x ops⟩
  · obtain ⟨c, cs, rfl⟩ := List.exists_cons_of_ne_nil nonempty
    obtain ⟨hc, -⟩ := List.forall_mem_cons.mp plain
    simpa using ((isPlain_iff c).mp hc).2.1
  · cases ops with
    | nil =>
      rw [operandField, List.append_nil]
      exact fun c hc => ((isPlain_iff c).mp (plain c (List.mem_of_mem_getLast? hc))).2.1
    | cons x ops =>
      obtain ⟨cs, c, h, hc⟩ := exists_operandsText_eq_append x ops
      rw [operandField, h, ← List.cons_append, ← List.append_assoc, List.getLast?_concat]
      simpa using ((isPlain_iff c).mp hc).2.1

theorem takeWhile_word_operandField : (word ++ operandField ops).takeWhile (· != ' ') = word := by
  rw [List.takeWhile_append_of_pos fun c hc => by simpa using ((isPlain_iff c).mp (plain c hc)).2.1]
  cases ops <;> simp [operandField]

theorem dropWhile_word_operandField : (word ++ operandField ops).dropWhile (· != ' ') = operandField ops := by
  rw [List.dropWhile_append_of_pos fun c hc => by simpa using ((isPlain_iff c).mp (plain c hc)).2.1]
  cases ops <;> simp [operandField]

theorem readLine_word_operandField (nonempty : word ≠ []) :
    readLine (word ++ operandField ops) = lineOf word (ops.map BitVec.toNat) := by
  have body : (word ++ operandField ops).isEmpty = false := by
    simp [nonempty]
  simp only [readLine, stripLine_word_operandField plain ops nonempty, body, takeWhile_word_operandField plain,
    dropWhile_word_operandField plain, readOperands_operandField, Bool.false_eq_true, if_false]

end

/-- Settles O51: the reader finds the mnemonic and the operands where the writer put them. -/
theorem everyCommandsTextAssemblesToItsWord : Obligations.EveryCommandsTextAssemblesToItsWord := by
  intro i
  refine ⟨_, ?_, assemble_command i⟩
  rw [instrText_eq, readLine_word_operandField (isPlain_mnemonicText _) _ (mnemonicText_ne_nil _), lineOf_mnemonicText]

end Sys2Proof.Machine
end
